-- ==== Sys2Proof/Word.lean ====
section
/-! DEFINITION. The words of the core: bytes, addresses and register numbers (R7, R11, R15, R20). -/

namespace Sys2Proof

/-- A byte, an unsigned integer in 0..255; bit 7 is the most significant (R7). Registers, memory cells and instruction
bytes are bytes (R11, R20, R51). -/
abbrev Byte := BitVec 8

/-- A memory address, 0..255 (R15, R30). Address arithmetic wraps modulo 256 (R33; log entry 7). -/
abbrev Addr := BitVec 8

/-- A register index, 0..7 (R4 `NREG`, R11). -/
abbrev Reg := Fin 8

end Sys2Proof
end

