-- ==== Sys2Proof/Machine/Memory.lean ====
section
/-! DEFINITION. The memory (R20, R30): 256 cells of 8 bits in one address space, held as the list of the cells that
differ from the fill byte, and its two accesses `MemRead` and `MemWrite` (R31, R32). -/

namespace Sys2Proof.Machine

/-- Memory: (address, byte) pairs in the canonical form `Memory.wf`. -/
abbrev Memory := List Host.Cell

/-- What an unlisted cell reads as: `IMAGE_FILL` = 0, the value the spec gives the cells the loader does not write
in its test programs (R5, R24, R151, D9). DESIGN CHOICE for every other run, unsafe (log entry 5). -/
def imageFill : Byte := 0#8

/-- `MEMSIZE` (R4). -/
def memSize : Nat := 256

/-- The canonical form: addresses strictly rising, all below 256, no entry equal to what an unlisted address reads as. -/
abbrev Memory.wf (m : Memory) : Prop :=
  List.Pairwise (fun c d : Host.Cell => c.1 < d.1) m ∧ ∀ c ∈ m, c.1 < memSize ∧ c.2 ≠ imageFill

/-- The byte listed at an address, or the fill byte. -/
def Memory.at (m : Memory) (k : Nat) : Byte :=
  match m with
  | [] => imageFill
  | c :: rest => if c.1 = k then c.2 else Memory.at rest k

/-- `MemRead(addr, 1)`: the byte stored in the cell; it changes nothing (R31). -/
def Memory.read (m : Memory) (a : Addr) : Byte := Memory.at m a.toNat

/-- Put a cell at its place in the rising order. -/
def Memory.insert (m : Memory) (k : Nat) (v : Byte) : Memory :=
  match m with
  | [] => [(k, v)]
  | c :: rest => if k < c.1 then (k, v) :: c :: rest else c :: Memory.insert rest k v

/-- `MemWrite(addr, 1, v)`: store the byte in the cell and change no other; every cell is writable (R32). Writing the
fill byte removes the entry, so that equal memories are equal lists. -/
def Memory.write (m : Memory) (a : Addr) (v : Byte) : Memory :=
  if v = imageFill then List.filter (fun c : Host.Cell => c.1 ≠ a.toNat) m
  else Memory.insert (List.filter (fun c : Host.Cell => c.1 ≠ a.toNat) m) a.toNat v

/-- The memory that holds `bytes` at sequentially increasing addresses from `k` on, and the fill byte elsewhere
(R24, R151). -/
def Memory.ofBytes (k : Nat) (bytes : List Byte) : Memory :=
  match bytes with
  | [] => []
  | b :: rest => if b = imageFill then Memory.ofBytes (k + 1) rest else (k, b) :: Memory.ofBytes (k + 1) rest

end Sys2Proof.Machine
end

