-- ==== Sys2Proof/Config.lean ====
section
/-! DEFINITION. What the spec leaves to the implementation (R5): the opcode map `OPC` and `RET_POLICY`, as plain data.
The defaults the spec gives for them stand in Decode.lean (`defaultOpcodes`) and Machine/ResetValues.lean
(`defaultRetPolicy`), where a repair can reach them. The third open parameter, `IMAGE`, is the memory a run starts from
(Machine/Interface.lean). The 13 mnemonics and their formats stand here because `OPC` is a map from mnemonics. -/

namespace Sys2Proof

/-- The 13 instructions of the opcode map, by name, in the source's order (R55). -/
inductive Mnemonic where
  | ldi | prn | hlt | mul | add | cmp | push | pop | call | ret | jmp | jeq | jne
  deriving DecidableEq, Repr

/-- The rows of the opcode map, in the source's order (R55, R4 `NINSTR` = 13). -/
def Mnemonic.all : List Mnemonic :=
  [.ldi, .prn, .hlt, .mul, .add, .cmp, .push, .pop, .call, .ret, .jmp, .jeq, .jne]

/-- The four instruction formats (R51): no operand, one register, two registers, register and immediate. -/
inductive Format where
  | z | r | rr | ri
  deriving DecidableEq, Repr

/-- Length in bytes of a format (R50, R51). -/
def Format.length : Format → Nat
  | .z => 1
  | .r => 2
  | .rr => 3
  | .ri => 3

/-- The format column of the opcode map (R55). The length of an instruction is implied by its opcode through this table
and nothing else (R52). -/
def Mnemonic.format : Mnemonic → Format
  | .ldi => .ri
  | .prn => .r
  | .hlt => .z
  | .mul => .rr
  | .add => .rr
  | .cmp => .rr
  | .push => .r
  | .pop => .r
  | .call => .r
  | .ret => .z
  | .jmp => .r
  | .jeq => .r
  | .jne => .r

/-- `OPC` (R5, R55): the opcode byte of each mnemonic. A configuration field: every semantic rule needs only that the 13
bytes are distinct (`OpcodeMap.wf`). -/
structure OpcodeMap where
  ldi : Byte
  prn : Byte
  hlt : Byte
  mul : Byte
  add : Byte
  cmp : Byte
  push : Byte
  pop : Byte
  call : Byte
  ret : Byte
  jmp : Byte
  jeq : Byte
  jne : Byte
  deriving DecidableEq, Repr

/-- `RET_POLICY` (R5, R113): what RET does to the stack, `literal` (R111) or `corrected` (R112). -/
inductive RetPolicy where
  | literal | corrected
  deriving DecidableEq, Repr

/-- The configuration of one machine, fixed for a run (R5, R113). It is carried in `State` so that one step function
covers every configuration (log entry 3); no step changes it. -/
structure Config where
  opcodes : OpcodeMap
  retPolicy : RetPolicy
  deriving DecidableEq, Repr

end Sys2Proof
end

