-- ==== Sys2Proof/Syntax.lean ====
section
/-! DEFINITION. The instructions: one constructor per row of the opcode map (R55), operands already decoded. -/

namespace Sys2Proof

/-- The 13 instructions (R55). `a` is operand A and `b` operand B, as checked register indices (R53, R73); `imm` is LDI's
8-bit immediate (R54). A register operand is a `Reg`, so an index above 7 is not a term of this type: the decoder turns
such a byte into the fault the spec gives it (R53). -/
inductive Instr where
  /-- LDI, load immediate (R80). -/
  | ldi (a : Reg) (imm : Byte)
  /-- PRN, print register (R81). -/
  | prn (a : Reg)
  /-- HLT, halt (R82). -/
  | hlt
  /-- MUL, multiply (R91). -/
  | mul (a b : Reg)
  /-- ADD, add (R92). -/
  | add (a b : Reg)
  /-- CMP, compare (R93). -/
  | cmp (a b : Reg)
  /-- PUSH, push register (R101). -/
  | push (a : Reg)
  /-- POP, pop into register (R102). -/
  | pop (a : Reg)
  /-- CALL, call subroutine (R110). -/
  | call (a : Reg)
  /-- RET, return from subroutine (R111, R112). -/
  | ret
  /-- JMP, jump (R120). -/
  | jmp (a : Reg)
  /-- JEQ, jump if equal (R121). -/
  | jeq (a : Reg)
  /-- JNE, jump if not equal (R122). -/
  | jne (a : Reg)
  deriving DecidableEq, Repr

/-- The row of the opcode map an instruction belongs to (R55). -/
def Instr.mnemonic : Instr → Mnemonic
  | .ldi _ _ => .ldi
  | .prn _ => .prn
  | .hlt => .hlt
  | .mul _ _ => .mul
  | .add _ _ => .add
  | .cmp _ _ => .cmp
  | .push _ => .push
  | .pop _ => .pop
  | .call _ => .call
  | .ret => .ret
  | .jmp _ => .jmp
  | .jeq _ => .jeq
  | .jne _ => .jne

/-- Length of an instruction in bytes, from the opcode map (R50, R52). -/
def Instr.length (i : Instr) : Nat := i.mnemonic.format.length

end Sys2Proof
end

