-- ==== Sys2Proof/WellFormed.lean ====
section
/-! DEFINITION. What makes an instruction as it stands in memory, and an opcode map, well formed; and the names under
which the core rejects what is not (R130). -/

namespace Sys2Proof

/-- The causes of a fault, each with the byte the spec records (`info`, R130). -/
inductive FaultCause where
  /-- Cause 1 (R131): raised by decode when the opcode byte `ir` is not one of the 13. Safe: the spec names the fault. -/
  | illegalOpcode (ir : Byte)
  /-- Cause 2 (R132): raised by decode when a register operand byte is above 7. Safe: the spec names the fault. -/
  | illegalRegister (operand : Byte)
  /-- Cause 3 (R95, R130): listed by the spec, raised by nothing (log entry 17). -/
  | unsupportedOperation
  deriving DecidableEq, Repr

/-- An instruction as fetched: a row of the opcode map with its two candidate operand bytes, not yet checked (R71, R72). -/
structure RawInstr where
  mnemonic : Mnemonic
  opa : Byte
  opb : Byte
  deriving DecidableEq, Repr

/-- A byte is a legal register operand when its whole value is 0..7; it is not masked (R53). -/
def isRegByte (v : Byte) : Bool := decide (v.toNat ≤ 7)

/-- The operand bytes a format uses as register indices are legal; bytes it does not use may hold anything (R53). -/
def operandsOk (f : Format) (opa opb : Byte) : Bool :=
  match f with
  | .z => true
  | .r => isRegByte opa
  | .ri => isRegByte opa
  | .rr => isRegByte opa && isRegByte opb

/-- The operand check of a fetched instruction (R53, R73). -/
def RawInstr.wf (i : RawInstr) : Bool := operandsOk i.mnemonic.format i.opa i.opb

/-- The 13 bytes of an opcode map in the order of its rows (R55). -/
def OpcodeMap.toList (o : OpcodeMap) : List Byte :=
  [o.ldi, o.prn, o.hlt, o.mul, o.add, o.cmp, o.push, o.pop, o.call, o.ret, o.jmp, o.jeq, o.jne]

/-- An opcode map is well formed when its 13 bytes are distinct: "any injective map from the 13 mnemonics to bytes" (R5). -/
abbrev OpcodeMap.wf (o : OpcodeMap) : Prop := o.toList.Nodup

end Sys2Proof
end

