-- ==== Sys2Proof/Decode.lean ====
section
/-! DEFINITION. The decoder (R52, R56, R58, R72, R73), total on any three bytes, and the encoder written from the same
tables (R51, R55). -/

namespace Sys2Proof

/-- The default `OPC` (R55). PRESUMED (log entry 1): the source prints no opcode byte; the spec supplies these from
general knowledge. Unsafe for claims about concrete byte images; no semantic rule depends on them. -/
def defaultOpcodes : OpcodeMap where
  ldi := 0b10000010#8
  prn := 0b01000111#8
  hlt := 0b00000001#8
  mul := 0b10100010#8
  add := 0b10100000#8
  cmp := 0b10100111#8
  push := 0b01000101#8
  pop := 0b01000110#8
  call := 0b01010000#8
  ret := 0b00010001#8
  jmp := 0b01010100#8
  jeq := 0b01010101#8
  jne := 0b01010110#8

/-- The opcode byte of a row (R55). -/
def OpcodeMap.byte (o : OpcodeMap) : Mnemonic → Byte
  | .ldi => o.ldi
  | .prn => o.prn
  | .hlt => o.hlt
  | .mul => o.mul
  | .add => o.add
  | .cmp => o.cmp
  | .push => o.push
  | .pop => o.pop
  | .call => o.call
  | .ret => o.ret
  | .jmp => o.jmp
  | .jeq => o.jeq
  | .jne => o.jne

/-- Match the whole opcode byte against the 13 rows (R56, R72). On a map with two equal bytes the earlier row answers;
`OpcodeMap.wf` rules such maps out (log entry 21). -/
def OpcodeMap.lookup (o : OpcodeMap) (ir : Byte) : Option Mnemonic :=
  Mnemonic.all.find? (fun m => o.byte m == ir)

/-- A register operand byte: the whole byte is the index, and a value above 7 raises IllegalRegister of that byte
(R53, R73; log entry 8). -/
def regOperand (v : Byte) : Except FaultCause Reg :=
  if h : v.toNat < 8 then .ok ⟨v.toNat, h⟩ else .error (.illegalRegister v)

/-- Format `R` (R51, R73): operand A is a register; operand B is not looked at. -/
def decodeR (mk : Reg → Instr) (opa : Byte) : Except FaultCause Instr :=
  match regOperand opa with
  | .error c => .error c
  | .ok a => .ok (mk a)

/-- Format `RR` (R51, R73): operand A is checked before operand B (log entry 16). -/
def decodeRR (mk : Reg → Reg → Instr) (opa opb : Byte) : Except FaultCause Instr :=
  match regOperand opa with
  | .error c => .error c
  | .ok a => decodeR (mk a) opb

/-- Format `RI` (R51, R54): operand A is a register, operand B the immediate as it stands. -/
def decodeRI (mk : Reg → Byte → Instr) (opa opb : Byte) : Except FaultCause Instr :=
  decodeR (fun a => mk a opb) opa

/-- The operand check of a matched row, and the instruction it yields (R58, R73). -/
def decodeOperands (m : Mnemonic) (opa opb : Byte) : Except FaultCause Instr :=
  match m with
  | .ldi => decodeRI .ldi opa opb
  | .prn => decodeR .prn opa
  | .hlt => .ok .hlt
  | .mul => decodeRR .mul opa opb
  | .add => decodeRR .add opa opb
  | .cmp => decodeRR .cmp opa opb
  | .push => decodeR .push opa
  | .pop => decodeR .pop opa
  | .call => decodeR .call opa
  | .ret => .ok .ret
  | .jmp => decodeR .jmp opa
  | .jeq => decodeR .jeq opa
  | .jne => decodeR .jne opa

/-- The decoder (R58): any three bytes yield an instruction or one of the two faults, the opcode being looked at first
(R133). -/
def decode (o : OpcodeMap) (ir opa opb : Byte) : Except FaultCause Instr :=
  match o.lookup ir with
  | none => .error (.illegalOpcode ir)
  | some m => decodeOperands m opa opb

/-- A register index as an operand byte: `00000aaa` (R51). -/
def regByte (a : Reg) : Byte := BitVec.ofNat 8 a.val

/-- The bytes of an instruction, at ascending addresses (R34, R51, R55). -/
def encode (o : OpcodeMap) : Instr → List Byte
  | .ldi a imm => [o.ldi, regByte a, imm]
  | .prn a => [o.prn, regByte a]
  | .hlt => [o.hlt]
  | .mul a b => [o.mul, regByte a, regByte b]
  | .add a b => [o.add, regByte a, regByte b]
  | .cmp a b => [o.cmp, regByte a, regByte b]
  | .push a => [o.push, regByte a]
  | .pop a => [o.pop, regByte a]
  | .call a => [o.call, regByte a]
  | .ret => [o.ret]
  | .jmp a => [o.jmp, regByte a]
  | .jeq a => [o.jeq, regByte a]
  | .jne a => [o.jne, regByte a]

/-- Byte `k` of an instruction numbered as the opcode table numbers its bits: bit 0 is the least significant bit of the
first byte, the second byte is bits 15..8, the third bits 23..16; bits from `nbits` on are 0. -/
def tableByte (nbits w k : Nat) : Byte := BitVec.ofNat 8 (w % 2 ^ nbits / 256 ^ k)

/-- What the decoder reads from an opcode-table word, under the default opcode map. -/
def decodeTableWord (nbits w : Nat) : Option Instr :=
  match decode defaultOpcodes (tableByte nbits w 0) (tableByte nbits w 1) (tableByte nbits w 2) with
  | .ok i => some i
  | .error _ => none

end Sys2Proof
end

