-- ==== Sys2Proof/Machine/ResetValues.lean ====
section
/-! DEFINITION. The values of the reset state (R26) and the default configuration (R5), where a repair can reach them. -/

namespace Sys2Proof.Machine

/-- The program counter after reset: `PC_RESET` = 0 (R4, R26). -/
def resetPc : Addr := 0#8

/-- The registers after reset (R26): `x[7]` is `SP_RESET` = 255, given by the source; `x[0]` to `x[6]` are 0, the spec's
own choice D8 (UNVERIFIED; log entry 4). -/
def resetRegs : Vector Byte 8 := #v[0#8, 0#8, 0#8, 0#8, 0#8, 0#8, 0#8, 255#8]

/-- The default `RET_POLICY` is `literal` (R5, R113; UNVERIFIED, log entry 2). -/
def defaultRetPolicy : RetPolicy := .literal

/-- The default configuration (R5). -/
def defaultConfig : Config where
  opcodes := defaultOpcodes
  retPolicy := defaultRetPolicy

end Sys2Proof.Machine
end

