-- ==== Sys2Proof/Machine/State.lean ====
section
/-! DEFINITION. The state of the core (R10), the reasons a step can stop, and the state after reset (R26). -/

namespace Sys2Proof.Machine

/-- The flag register `FL`: three separate 1-bit flags (R17; no packed layout exists, decision D16). -/
structure Flags where
  /-- `FL.L` -/
  less : Bool
  /-- `FL.G` -/
  greater : Bool
  /-- `FL.E` -/
  equal : Bool
  deriving DecidableEq, Repr

/-- The run state (R19). `halted` and `faulted` are terminal. -/
inductive RunState where
  /-- The core executes steps. -/
  | running
  /-- An HLT was executed (R82). -/
  | halted
  /-- A fatal fault, with its cause and the byte recorded (R130, R137). -/
  | faulted (cause : FaultCause)
  deriving DecidableEq, Repr

/-- The state: the tuple `(x, pc, FL, run, mem)` of R10, the output stream (R23), and the configuration the machine is
built with (R5; log entry 3). -/
structure State where
  /-- `x[0..7]`, eight 8-bit registers; `x[7]` is the stack pointer (R11, R12). -/
  regs : Vector Byte 8
  /-- `pc`, during a step the address of the instruction being executed (R15). -/
  pc : Addr
  /-- `FL` (R17). -/
  flags : Flags
  /-- `run` (R19). -/
  run : RunState
  /-- `mem[0..255]` (R20). -/
  mem : Memory
  /-- The output stream, first byte first (R23). -/
  out : List Byte
  /-- `OPC` and `RET_POLICY`, fixed for a run (R5, R113). -/
  config : Config
  deriving DecidableEq, Repr

/-- Why no step can be taken. The spec's own faults are not here: they are states the machine goes to
(`RunState.faulted`, R137). Both of these are stuck states of R70 ("From `HALTED` or `FAULTED` there is no step"). -/
inductive Fault where
  /-- Raised by `step` alone, when `run` is `halted` (R70, R82). Safe: the hardware takes no step either. -/
  | coreHalted
  /-- Raised by `step` alone, when `run` is `faulted` (R70, R139). Safe: the hardware takes no step either. -/
  | coreFaulted (cause : FaultCause)
  deriving DecidableEq, Repr

/-- Why an instruction has no meaning. Every instruction of this core has one, so no arm answers with it. -/
inductive Refusal where
  /-- An arm of `exec` that has no meaning yet; raised by none. Safe. -/
  | notModelled (mnemonic : String)
  deriving DecidableEq, Repr

/-- The state right after reset (R26, R150), with the default configuration and no image loaded: memory lists nothing,
so every cell reads as the fill byte (log entries 5 and 13). -/
def State.reset : State where
  regs := resetRegs
  pc := resetPc
  flags := { less := false, greater := false, equal := false }
  run := .running
  mem := []
  out := []
  config := defaultConfig

end Sys2Proof.Machine
end

