-- ==== Sys2Proof/Machine/Ops.lean ====
section
/-! DEFINITION. The named operations every meaning is written with: the pseudocode primitives of R8, taking a fault
(R137), and halting. -/

namespace Sys2Proof.Machine

/-- The register used as the stack pointer: `SPIDX` = 7, built into the hardware (R4, R12). -/
def spIndex : Reg := 7

/-- Read `x[r]` (R8). No register is hardwired and reading changes nothing (R13). -/
def State.reg (s : State) (r : Reg) : Byte := s.regs.get r

/-- Write `x[r]` (R8). Every register is writable (R13). -/
def State.setReg (s : State) (r : Reg) (v : Byte) : State := { s with regs := s.regs.set r v }

/-- The stack pointer `x[7]` (R12). -/
def State.sp (s : State) : Byte := s.reg spIndex

/-- Write the stack pointer `x[7]` (R12). -/
def State.setSp (s : State) (v : Byte) : State := s.setReg spIndex v

/-- `MemRead(a, 1)` (R8, R31). -/
def State.memRead (s : State) (a : Addr) : Byte := Memory.read s.mem a

/-- `MemWrite(a, 1, v)` (R8, R32). -/
def State.memWrite (s : State) (a : Addr) (v : Byte) : State := { s with mem := Memory.write s.mem a v }

/-- The address `n` bytes past the current instruction's opcode, modulo 256 (R15, R33; log entry 7). -/
def State.after (s : State) (n : Nat) : Addr := s.pc + BitVec.ofNat 8 n

/-- `pc <- t` (R8): a control transfer sets `pc` and nothing else moves it (R74, R123). -/
def State.setPc (s : State) (t : Addr) : State := { s with pc := t }

/-- `pc <- (pc + len) mod 256`: the sequential advance (R16). -/
def State.advance (s : State) (len : Nat) : State := s.setPc (s.after len)

/-- Write all three flags (R93). -/
def State.setFlags (s : State) (f : Flags) : State := { s with flags := f }

/-- `Output(v)`: append one byte to the output stream (R8, R23). -/
def State.output (s : State) (v : Byte) : State := { s with out := s.out ++ [v] }

/-- `run <- HALTED` (R82). -/
def State.halt (s : State) : State := { s with run := .halted }

/-- `raise <Cause>(info)` (R8, R137): the run state records the cause, and registers, flags, memory, output and `pc` keep
the values they had when the step began. Nothing is saved, nothing is pushed, no mode changes and control goes nowhere.
There is no return from it: no instruction leaves the faulted state (R139), only reset does (`State.applyReset`). -/
def State.raise (s : State) (c : FaultCause) : State := { s with run := .faulted c }

/-- Reduce an integer to a byte: its value modulo 256, the lost high bits recorded nowhere (R90; log entry 6). -/
def wrapByte (n : Nat) : Byte := BitVec.ofNat 8 n

end Sys2Proof.Machine
end

