-- ==== Sys2Proof/Machine/Flags.lean ====
section
/-! DEFINITION. The flag computation: CMP is the only writer of the flags (R18, R93). -/

namespace Sys2Proof.Machine

/-- The three flags after comparing two bytes in the unsigned order on 0..255: the old flags are fully overwritten, and
exactly one of the new ones is set (R93; log entry 10). -/
def compareFlags (x y : Byte) : Flags where
  less := decide (x.toNat < y.toNat)
  greater := decide (y.toNat < x.toNat)
  equal := decide (x.toNat = y.toNat)

/-- The condition of JEQ (R121): Equal is set. -/
def State.isEqual (s : State) : Bool := s.flags.equal

/-- The condition of JNE (R122): Equal is not set (and not "Less or Greater is set"). -/
def State.isNotEqual (s : State) : Bool := !s.flags.equal

end Sys2Proof.Machine
end

