-- ==== Sys2Proof/Machine/Operands.lean ====
section
/-! DEFINITION. The operand forms of the instruction set: a register value (R53), LDI's immediate (R54), and the stack
forms, `x[7]` indirect with pre-decrement or post-increment, and the top cell (R33, R38). -/

namespace Sys2Proof.Machine

/-- Register operand: the value of `x[a]` at the point the rule reads it (R53, R100). Index 7 is a register like any
other (R12). -/
def State.operand (s : State) (a : Reg) : Byte := s.reg a

/-- Immediate operand: the byte as it stands, not extended, scaled or shifted (R54). -/
def immediate (imm : Byte) : Byte := imm

/-- Pre-decrement: `x[7] <- (x[7] - 1) mod 256` (R33, R38). -/
def State.preDecrement (s : State) : State := s.setSp (s.sp - 1#8)

/-- Post-increment: `x[7] <- (x[7] + 1) mod 256` (R33, R38). -/
def State.postIncrement (s : State) : State := s.setSp (s.sp + 1#8)

/-- The byte in the top-of-stack cell, `mem[x[7]]` (R38). -/
def State.top (s : State) : Byte := s.memRead s.sp

/-- Store a byte in the top-of-stack cell, `mem[x[7]] <- v` (R38). -/
def State.setTop (s : State) (v : Byte) : State := s.memWrite s.sp v

end Sys2Proof.Machine
end

