-- ==== Sys2Proof/Machine/Alu.lean ====
section
/-! DEFINITION. The arithmetic unit and the meanings of MUL, ADD and CMP (spec/42_alu.md). The unit is combinational,
"pure operations over register values" (R94): one function per operation, so that an unsupported operation select does
not exist (R95; log entry 17). -/

namespace Sys2Proof.Machine

/-- The integer product of two unsigned bytes, reduced modulo 256 (R90, R91). -/
def aluMul (x y : Byte) : Byte := wrapByte (x.toNat * y.toNat)

/-- The integer sum of two unsigned bytes, reduced modulo 256 (R90, R92). -/
def aluAdd (x y : Byte) : Byte := wrapByte (x.toNat + y.toNat)

/-- MUL (R91): `x[a] <- (x[a] * x[b]) mod 256; pc <- (pc + 3) mod 256`. -/
def execMul (a b : Reg) (s : State) : Host.Outcome State Fault Refusal :=
  .next ((s.setReg a (aluMul (s.operand a) (s.operand b))).advance 3)

/-- ADD (R92): `x[a] <- (x[a] + x[b]) mod 256; pc <- (pc + 3) mod 256`. -/
def execAdd (a b : Reg) (s : State) : Host.Outcome State Fault Refusal :=
  .next ((s.setReg a (aluAdd (s.operand a) (s.operand b))).advance 3)

/-- CMP (R93): the three flags from the unsigned comparison of `x[a]` with `x[b]`; `pc <- (pc + 3) mod 256`. -/
def execCmp (a b : Reg) (s : State) : Host.Outcome State Fault Refusal :=
  .next ((s.setFlags (compareFlags (s.operand a) (s.operand b))).advance 3)

end Sys2Proof.Machine
end

