-- ==== Sys2Proof/Machine/Jump.lean ====
section
/-! DEFINITION. The meanings of JMP, JEQ and JNE (spec/45_jumps.md). Every target is absolute, from a register, and needs
no alignment (R123). -/

namespace Sys2Proof.Machine

/-- A conditional transfer (R121, R122): `pc <- x[a]` when the condition holds, `pc <- (pc + 2) mod 256` otherwise. -/
def jumpIf (taken : Bool) (a : Reg) (s : State) : State :=
  if taken then s.setPc (s.operand a) else s.advance 2

/-- JMP (R120): `pc <- x[a]`. -/
def execJmp (a : Reg) (s : State) : Host.Outcome State Fault Refusal :=
  .next (s.setPc (s.operand a))

/-- JEQ (R121): taken when `FL.E = 1`. -/
def execJeq (a : Reg) (s : State) : Host.Outcome State Fault Refusal :=
  .next (jumpIf s.isEqual a s)

/-- JNE (R122): taken when `FL.E = 0`. -/
def execJne (a : Reg) (s : State) : Host.Outcome State Fault Refusal :=
  .next (jumpIf s.isNotEqual a s)

end Sys2Proof.Machine
end

