-- ==== Sys2Proof/Machine/LoadPrintHalt.lean ====
section
/-! DEFINITION. The meanings of LDI, PRN and HLT (spec/41_load_print_halt.md). -/

namespace Sys2Proof.Machine

/-- LDI (R80): `x[a] <- imm; pc <- (pc + 3) mod 256`. -/
def execLdi (a : Reg) (imm : Byte) (s : State) : Host.Outcome State Fault Refusal :=
  .next ((s.setReg a (immediate imm)).advance 3)

/-- PRN (R81): `Output(x[a]); pc <- (pc + 2) mod 256`. -/
def execPrn (a : Reg) (s : State) : Host.Outcome State Fault Refusal :=
  .next ((s.output (s.operand a)).advance 2)

/-- HLT (R82): `run <- HALTED`; `pc` keeps the address of the HLT opcode (log entry 11). -/
def execHlt (s : State) : Host.Outcome State Fault Refusal :=
  .next s.halt

end Sys2Proof.Machine
end

