-- ==== Sys2Proof/Machine/Stack.lean ====
section
/-! DEFINITION. The meanings of PUSH and POP (spec/43_stack.md). The parts of an effect happen strictly left to right,
each seeing the writes of the parts before it (R100; log entry 9); this decides the forms with `a = 7`. -/

namespace Sys2Proof.Machine

/-- PUSH (R101): `x[7] <- (x[7] - 1) mod 256; MemWrite(x[7], 1, x[a]); pc <- (pc + 2) mod 256`. `x[a]` is read after the
decrement. -/
def execPush (a : Reg) (s : State) : Host.Outcome State Fault Refusal :=
  .next ((s.preDecrement.setTop (s.preDecrement.operand a)).advance 2)

/-- POP (R102): `x[a] <- MemRead(x[7], 1); x[7] <- (x[7] + 1) mod 256; pc <- (pc + 2) mod 256`. The increment reads `x[7]`
after the write of `x[a]`. -/
def execPop (a : Reg) (s : State) : Host.Outcome State Fault Refusal :=
  .next ((s.setReg a s.top).postIncrement.advance 2)

end Sys2Proof.Machine
end

