-- ==== Sys2Proof/Machine/Subroutine.lean ====
section
/-! DEFINITION. The meanings of CALL and RET (spec/44_subroutine.md). Which RET the machine has is its configuration's
`retPolicy` (R113; log entry 2). -/

namespace Sys2Proof.Machine

/-- CALL (R110): `x[7] <- (x[7] - 1) mod 256; MemWrite(x[7], 1, (pc + 2) mod 256); pc <- x[a]`. `x[a]` is read after the
decrement (R100). -/
def execCall (a : Reg) (s : State) : Host.Outcome State Fault Refusal :=
  .next ((s.preDecrement.setTop (s.after 2)).setPc (s.preDecrement.operand a))

/-- RET, literal behaviour (R111): the target is read, then the slot is overwritten with `(x[7] + 1) mod 256`; `x[7]` is
not changed. -/
def retLiteral (s : State) : State := (s.setTop (s.sp + 1#8)).setPc s.top

/-- RET, corrected behaviour (R112): the target is read, `x[7] <- (x[7] + 1) mod 256`, and memory is not written. -/
def retCorrected (s : State) : State := s.postIncrement.setPc s.top

/-- RET (R111, R112) by `RET_POLICY` (R113). -/
def execRet (s : State) : Host.Outcome State Fault Refusal :=
  match s.config.retPolicy with
  | .literal => .next (retLiteral s)
  | .corrected => .next (retCorrected s)

end Sys2Proof.Machine
end

