-- ==== Sys2Proof/Machine/Fetch.lean ====
section
/-! DEFINITION. Fetch and decode (R71 to R73): the three bytes a step latches, what the decoder makes of them, and how
bytes are placed where the next fetch reads them. -/

namespace Sys2Proof.Machine

/-- The three bytes latched at the start of a step, dead at its end (R22): the opcode and the two candidate operands. -/
structure Fetched where
  ir : Byte
  opa : Byte
  opb : Byte
  deriving DecidableEq, Repr

/-- Fetch (R71): the bytes at `pc`, `(pc + 1) mod 256` and `(pc + 2) mod 256`, whether or not the instruction uses them
(R44). It changes no state. -/
def State.fetch (s : State) : Fetched where
  ir := s.memRead (s.after 0)
  opa := s.memRead (s.after 1)
  opb := s.memRead (s.after 2)

/-- Decode the fetched bytes under the machine's own opcode map (R72, R73). -/
def State.decodeNext (s : State) : Except FaultCause Instr :=
  decode s.config.opcodes s.fetch.ir s.fetch.opa s.fetch.opb

/-- Store three bytes at `pc`, `pc + 1`, `pc + 2` (modulo 256), where the next step fetches. -/
def State.placeAtPc (s : State) (b0 b1 b2 : Byte) : State :=
  ((s.memWrite (s.after 0) b0).memWrite (s.after 1) b1).memWrite (s.after 2) b2

/-- What the next fetch needs beside the bytes: a running core, and the opcode map the table's words are written in
(log entry 13). At `State.reset` both already hold. -/
def State.readyForTableWord (s : State) : State :=
  { s with run := .running, config := { s.config with opcodes := defaultOpcodes } }

end Sys2Proof.Machine
end

