-- ==== Sys2Proof/Machine/Step.lean ====
section
/-! DEFINITION. One step of the machine (R70 to R75, R78): one whole instruction, or one fault taken. -/

namespace Sys2Proof.Machine

/-- A step is defined exactly when the core runs (R70). It fetches, decodes and executes; an instruction that does not
decode takes its fault, which changes the run state and nothing else (R72, R73, R137). -/
def step (s : State) : Host.Outcome State Fault Refusal :=
  match s.run with
  | .halted => .fault .coreHalted
  | .faulted c => .fault (.coreFaulted c)
  | .running =>
    match s.decodeNext with
    | .ok i => exec i s
    | .error c => .next (s.raise c)

/-- The state `s` with an opcode-table word stored where the next step fetches, so that the very next step runs it
(log entry 13). -/
def State.withFetchWord (s : State) (nbits w : Nat) : State :=
  s.readyForTableWord.placeAtPc (tableByte nbits w 0) (tableByte nbits w 1) (tableByte nbits w 2)

end Sys2Proof.Machine
end

