-- ==== Sys2Proof/Machine/Interface.lean ====
section
/-! DEFINITION. The core's surroundings (R23 to R27, R45, R140, R150 to R153): reset, loading an image, launch, the
termination status and what the host sees. None of these is a step of the core; while the core runs the host has no move
(R6, R24; log entry 18). -/

namespace Sys2Proof.Machine

/-- Reset, at any time and from any state (R150): everything takes its reset value, but memory is kept (R153; log entry
15), and so is the configuration the machine is built with. -/
def State.applyReset (s : State) : State := { State.reset with mem := s.mem, config := s.config }

/-- The loader's image (R24, R151): the program's bytes at addresses 0, 1, 2, ... and the fill byte in every other cell.
A program of more than 256 bytes cannot be loaded (R152). An image of all 256 bytes is a program of that length. -/
def Memory.image (program : List Byte) : Option Memory :=
  if program.length ≤ memSize then some (Memory.ofBytes 0 program) else none

/-- The launch state of a machine and its image (R151): reset, with the image in memory. -/
def State.launch (c : Config) (image : Memory) : State := { State.reset with mem := image, config := c }

/-- Reset with a new program loaded while the core is held in reset: steps (1) and (2) of R151. -/
def State.load (s : State) (program : List Byte) : Option State :=
  match Memory.image program with
  | none => none
  | some m => some (State.launch s.config m)

/-- The loader's write port `ld_we`, `ld_addr`, `ld_data` (R27): one cell of the image, written while the core is in
reset. -/
def State.loadCell (s : State) (a : Addr) (v : Byte) : State := s.applyReset.memWrite a v

/-- The cause number of a fault (R130; the spec's own numbering, log entry 17). -/
def FaultCause.number : FaultCause → BitVec 2
  | .illegalOpcode _ => 1#2
  | .illegalRegister _ => 2#2
  | .unsupportedOperation => 3#2

/-- The byte recorded with a fault (`info`, R130). -/
def FaultCause.info : FaultCause → Option Byte
  | .illegalOpcode ir => some ir
  | .illegalRegister v => some v
  | .unsupportedOperation => none

/-- The status the host sees for a cause: 1 for both faults that can occur; the table gives none for the third
(R130, R140). -/
def FaultCause.status : FaultCause → Option Nat
  | .illegalOpcode _ => some 1
  | .illegalRegister _ => some 1
  | .unsupportedOperation => none

/-- Termination status (R25, R140): 0 when halted, the cause's status when faulted, none while the core runs. -/
def State.status (s : State) : Option Nat :=
  match s.run with
  | .running => none
  | .halted => some 0
  | .faulted c => FaultCause.status c

/-- What the host prints for the output stream (R23, R81): each byte as an unpadded decimal numeral, one a line. -/
def State.printedLines (s : State) : List String := s.out.map (fun v => toString v.toNat)

/-- The output ports of R27 that show the run state (informative: no rule depends on them). -/
structure Pins where
  halted : Bool
  fault : Bool
  faultCause : Option (BitVec 2)
  faultInfo : Option Byte
  deriving DecidableEq, Repr

/-- The run state on the output ports (R27). -/
def State.pins (s : State) : Pins :=
  match s.run with
  | .running => { halted := false, fault := false, faultCause := none, faultInfo := none }
  | .halted => { halted := true, fault := false, faultCause := none, faultInfo := none }
  | .faulted c => { halted := false, fault := true, faultCause := some (FaultCause.number c), faultInfo := FaultCause.info c }

/-- The output port `out_valid`, `out_data` over one step from `s` to `t` (R27): the byte a PRN emitted, if the step was
one. -/
def outPulse (s t : State) : Option Byte := (t.out.drop s.out.length).head?

end Sys2Proof.Machine
end

