-- ==== Sys2Proof/Safety.lean ====
section
/-! DEFINITION. What counts as a good state and a good end, in the terms claims use. -/

namespace Sys2Proof.Machine

/-- At most one of the three flags is set (R17). -/
def Flags.atMostOne (f : Flags) : Prop :=
  ¬(f.less = true ∧ f.greater = true) ∧ ¬(f.less = true ∧ f.equal = true) ∧ ¬(f.greater = true ∧ f.equal = true)

/-- Exactly one of the three flags is set, as after any comparison (R17, R93). -/
def Flags.exactlyOne (f : Flags) : Prop :=
  f.atMostOne ∧ (f.less = true ∨ f.greater = true ∨ f.equal = true)

/-- The invariant of the machine: memory is in its canonical form, at most one flag is set (R17), the opcode map is
injective (R5), and the run state is not the fault that nothing raises (R95, R130). -/
structure State.Inv (s : State) : Prop where
  memory : s.mem.wf
  flags : s.flags.atMostOne
  opcodes : s.config.opcodes.wf
  cause : s.run ≠ .faulted .unsupportedOperation

/-- The run ended by HLT: the one way a program runs to completion (R82, R139). -/
def State.completed (s : State) : Prop := s.run = .halted

/-- The run ended by a fatal fault, a distinct outcome (R139). -/
def State.faultedWith (s : State) (c : FaultCause) : Prop := s.run = .faulted c

/-- No step is defined (R70). -/
def State.stopped (s : State) : Prop := s.run ≠ .running

end Sys2Proof.Machine
end

