-- ==== Sys2Proof/Certificates/Slice0/Obligations.lean ====
section
/-! DEFINITION. The statements for the provers, and the few predicates they are written with. The spec's text is DOC00's
sentences plus decisions of the spec's own (D<n>); a docstring names the decision, and the log entry, that a clause rests
on. -/

namespace Sys2Proof.Claims

open Sys2Proof.Machine

/-! ### Frames -/

/-- Every register outside `but` keeps its value. -/
def RegsKept (but : List Reg) (s t : State) : Prop := ∀ r : Reg, r ∉ but → t.reg r = s.reg r

/-- Every cell of memory reads as before. -/
def MemKept (s t : State) : Prop := ∀ a : Addr, t.memRead a = s.memRead a

/-- Every cell of memory but `x` reads as before. -/
def MemKeptBut (x : Addr) (s t : State) : Prop := ∀ a : Addr, a ≠ x → t.memRead a = s.memRead a

/-- All three flags keep their values. -/
def FlagsKept (s t : State) : Prop := t.flags = s.flags

/-- The output stream, the run state and the configuration keep their values. -/
def OutRunConfigKept (s t : State) : Prop := t.out = s.out ∧ t.run = s.run ∧ t.config = s.config

/-! ### What stands at `pc` -/

/-- The core runs, its opcode map is injective, and the opcode byte of `m` stands at `pc` with the candidate operands
`opa`, `opb` in the two cells after it, modulo 256 (R71). -/
structure AtInstr (s : State) (m : Mnemonic) (opa opb : Byte) : Prop where
  running : s.run = .running
  distinct : s.config.opcodes.wf
  ir : s.memRead s.pc = s.config.opcodes.byte m
  a : s.memRead (s.pc + 1#8) = opa
  b : s.memRead (s.pc + 2#8) = opb

/-- The step raises the fault `c`: the run state records it and nothing else changes (R137). -/
def Raises (s : State) (c : FaultCause) : Prop := step s = .next { s with run := .faulted c }

/-- Format `Z`: the operand bytes are ignored, whatever they hold (R51, R53). -/
def RunsZ (m : Mnemonic) (i : Instr) : Prop :=
  ∀ (s : State) (opa opb : Byte), AtInstr s m opa opb → step s = exec i s

/-- Format `R`: IllegalRegister on a bad operand A, before any effect; else the instruction with that register (R51, R53,
R73). Operand B is ignored. -/
def RunsR (m : Mnemonic) (mk : Reg → Instr) : Prop :=
  ∀ (s : State) (opa opb : Byte), AtInstr s m opa opb →
    (7 < opa.toNat → Raises s (.illegalRegister opa)) ∧
      ∀ a : Reg, opa.toNat = a.val → step s = exec (mk a) s

/-- Format `RI`: as `R`, with operand B the immediate as it stands (R51, R54). -/
def RunsRI (m : Mnemonic) (mk : Reg → Byte → Instr) : Prop :=
  ∀ (s : State) (opa opb : Byte), AtInstr s m opa opb →
    (7 < opa.toNat → Raises s (.illegalRegister opa)) ∧
      ∀ a : Reg, opa.toNat = a.val → step s = exec (mk a opb) s

/-- Format `RR`: IllegalRegister on a bad operand A, else on a bad operand B, before any effect; else the instruction with
those registers (R51, R53, R73). -/
def RunsRR (m : Mnemonic) (mk : Reg → Reg → Instr) : Prop :=
  ∀ (s : State) (opa opb : Byte), AtInstr s m opa opb →
    (7 < opa.toNat → Raises s (.illegalRegister opa)) ∧
      (opa.toNat ≤ 7 → 7 < opb.toNat → Raises s (.illegalRegister opb)) ∧
      ∀ a b : Reg, opa.toNat = a.val → opb.toNat = b.val → step s = exec (mk a b) s

/-- The decoder reads the instruction `i` from the three bytes at `pc` (R71, R72). -/
def Decodes (s : State) (i : Instr) : Prop :=
  decode s.config.opcodes (s.memRead s.pc) (s.memRead (s.pc + 1#8)) (s.memRead (s.pc + 2#8)) = .ok i

/-- The decoder rejects the three bytes at `pc` with the fault `c` (R72, R73). -/
def Rejects (s : State) (c : FaultCause) : Prop :=
  decode s.config.opcodes (s.memRead s.pc) (s.memRead (s.pc + 1#8)) (s.memRead (s.pc + 2#8)) = .error c

/-! ### Tables of 10_state.md -/

/-- The registers an instruction writes (the table of R14). -/
def writtenRegs (p : RetPolicy) : Instr → List Reg
  | .ldi a _ => [a]
  | .prn _ => []
  | .hlt => []
  | .mul a _ => [a]
  | .add a _ => [a]
  | .cmp _ _ => []
  | .push _ => [7]
  | .pop a => [a, 7]
  | .call _ => [7]
  | .ret => if p = .corrected then [7] else []
  | .jmp _ => []
  | .jeq _ => []
  | .jne _ => []

/-- How an instruction leaves `pc` (the table of R16). CALL reads `x[a]` after its decrement (R110). -/
def nextPc (s : State) : Instr → Addr
  | .ldi _ _ => s.pc + 3#8
  | .prn _ => s.pc + 2#8
  | .hlt => s.pc
  | .mul _ _ => s.pc + 3#8
  | .add _ _ => s.pc + 3#8
  | .cmp _ _ => s.pc + 3#8
  | .push _ => s.pc + 2#8
  | .pop _ => s.pc + 2#8
  | .call a => if a = 7 then s.reg 7 - 1#8 else s.reg a
  | .ret => s.memRead (s.reg 7)
  | .jmp a => s.reg a
  | .jeq a => if s.flags.equal = true then s.reg a else s.pc + 2#8
  | .jne a => if s.flags.equal = false then s.reg a else s.pc + 2#8

end Sys2Proof.Claims

open Sys2Proof Sys2Proof.Machine Sys2Proof.Claims

/-! ### One statement per instruction: result, frame, completion, and what the step does with its bytes

Each says that the instruction completes from every state, with every operand, what it leaves, what it changes, and that a
running core whose `pc` stands at its bytes executes it or raises the exception its rule names. The opcode byte is the
machine's own `OPC` entry, whatever value that is; the default values are not claimed here (log entry 1). Where a sum is
taken modulo 256 the rule says so, after the spec's decisions D2 and D3 (log entries 6 and 7); IllegalRegister is after
D4 (log entry 8). -/

/-- R80. -/
def Obligations.LdiLoadsImmediate : Prop :=
  (∀ (a : Reg) (imm : Byte) (s : State), ∃ t, exec (.ldi a imm) s = .next t ∧
    t.reg a = imm ∧
    t.pc.toNat = (s.pc.toNat + 3) % 256 ∧
    RegsKept [a] s t ∧ MemKept s t ∧ FlagsKept s t ∧ OutRunConfigKept s t) ∧
  RunsRI .ldi .ldi

/-- R81: one byte, the value of the register, is appended to the output stream. -/
def Obligations.PrnEmitsRegister : Prop :=
  (∀ (a : Reg) (s : State), ∃ t, exec (.prn a) s = .next t ∧
    t.out = s.out ++ [s.reg a] ∧
    t.pc.toNat = (s.pc.toNat + 2) % 256 ∧
    RegsKept [] s t ∧ MemKept s t ∧ FlagsKept s t ∧ t.run = s.run ∧ t.config = s.config) ∧
  RunsR .prn .prn

/-- R82. That `pc` is unchanged is the spec's decision D6 (log entry 11). HLT is the only way to the halted state. -/
def Obligations.HltHaltsTheCore : Prop :=
  (∀ s : State, ∃ t, exec .hlt s = .next t ∧
    t.run = .halted ∧ t.pc = s.pc ∧
    RegsKept [] s t ∧ MemKept s t ∧ FlagsKept s t ∧ t.out = s.out ∧ t.config = s.config) ∧
  RunsZ .hlt .hlt ∧
  ∀ s t : State, step s = .next t → t.run = .halted → Decodes s .hlt

/-- R91: the product modulo 256, both factors read before the write; no flag records the lost bits. -/
def Obligations.MulWritesProductModulo256 : Prop :=
  (∀ (a b : Reg) (s : State), ∃ t, exec (.mul a b) s = .next t ∧
    (t.reg a).toNat = ((s.reg a).toNat * (s.reg b).toNat) % 256 ∧
    t.pc.toNat = (s.pc.toNat + 3) % 256 ∧
    RegsKept [a] s t ∧ MemKept s t ∧ FlagsKept s t ∧ OutRunConfigKept s t) ∧
  RunsRR .mul .mul

/-- R92: the sum modulo 256, both addends read before the write; no flag records the lost bit. -/
def Obligations.AddWritesSumModulo256 : Prop :=
  (∀ (a b : Reg) (s : State), ∃ t, exec (.add a b) s = .next t ∧
    (t.reg a).toNat = ((s.reg a).toNat + (s.reg b).toNat) % 256 ∧
    t.pc.toNat = (s.pc.toNat + 3) % 256 ∧
    RegsKept [a] s t ∧ MemKept s t ∧ FlagsKept s t ∧ OutRunConfigKept s t) ∧
  RunsRR .add .add

/-- R93. That the order is the unsigned one is the spec's decision D10 (log entry 10). -/
def Obligations.CmpSetsFlagsByUnsignedOrder : Prop :=
  (∀ (a b : Reg) (s : State), ∃ t, exec (.cmp a b) s = .next t ∧
    (t.flags.equal = true ↔ s.reg a = s.reg b) ∧
    (t.flags.less = true ↔ (s.reg a).toNat < (s.reg b).toNat) ∧
    (t.flags.greater = true ↔ (s.reg b).toNat < (s.reg a).toNat) ∧
    t.pc.toNat = (s.pc.toNat + 3) % 256 ∧
    RegsKept [] s t ∧ MemKept s t ∧ OutRunConfigKept s t) ∧
  RunsRR .cmp .cmp

/-- R101. The store goes to the decremented stack pointer; PUSH R7 stores the decremented pointer (R100, the spec's
decision D11, log entry 9). -/
def Obligations.PushStoresBelowTheTop : Prop :=
  (∀ (a : Reg) (s : State), ∃ t, exec (.push a) s = .next t ∧
    (t.reg 7).toNat = ((s.reg 7).toNat + 255) % 256 ∧
    t.memRead (s.reg 7 - 1#8) = (if a = 7 then s.reg 7 - 1#8 else s.reg a) ∧
    t.pc.toNat = (s.pc.toNat + 2) % 256 ∧
    RegsKept [7] s t ∧ MemKeptBut (s.reg 7 - 1#8) s t ∧ FlagsKept s t ∧ OutRunConfigKept s t) ∧
  RunsR .push .push

/-- R102. The cell is not changed; POP R7 ends with the popped byte plus one (R100, the spec's decision D11, log
entry 9). -/
def Obligations.PopLoadsTheTop : Prop :=
  (∀ (a : Reg) (s : State), ∃ t, exec (.pop a) s = .next t ∧
    (a ≠ 7 → t.reg a = s.memRead (s.reg 7) ∧ (t.reg 7).toNat = ((s.reg 7).toNat + 1) % 256) ∧
    (a = 7 → (t.reg 7).toNat = ((s.memRead (s.reg 7)).toNat + 1) % 256) ∧
    t.pc.toNat = (s.pc.toNat + 2) % 256 ∧
    RegsKept [a, 7] s t ∧ MemKept s t ∧ FlagsKept s t ∧ OutRunConfigKept s t) ∧
  RunsR .pop .pop

/-- R110. CALL R7 jumps to the decremented stack pointer (R100, the spec's decision D11, log entry 9). -/
def Obligations.CallPushesReturnAddressAndJumps : Prop :=
  (∀ (a : Reg) (s : State), ∃ t, exec (.call a) s = .next t ∧
    (t.reg 7).toNat = ((s.reg 7).toNat + 255) % 256 ∧
    (t.memRead (s.reg 7 - 1#8)).toNat = (s.pc.toNat + 2) % 256 ∧
    t.pc = (if a = 7 then s.reg 7 - 1#8 else s.reg a) ∧
    RegsKept [7] s t ∧ MemKeptBut (s.reg 7 - 1#8) s t ∧ FlagsKept s t ∧ OutRunConfigKept s t) ∧
  RunsR .call .call

/-- R111, `RET_POLICY = literal` (the spec's decision D5, log entry 2): the target is read before the slot is
overwritten, and no register changes. -/
def Obligations.LiteralRetRewritesTheTop : Prop :=
  (∀ s : State, s.config.retPolicy = .literal → ∃ t, exec .ret s = .next t ∧
    t.pc = s.memRead (s.reg 7) ∧
    (t.memRead (s.reg 7)).toNat = ((s.reg 7).toNat + 1) % 256 ∧
    RegsKept [] s t ∧ MemKeptBut (s.reg 7) s t ∧ FlagsKept s t ∧ OutRunConfigKept s t) ∧
  RunsZ .ret .ret

/-- R112, `RET_POLICY = corrected` (the spec's decision D5, log entry 2): the stack pointer is incremented and memory is
not written. -/
def Obligations.CorrectedRetPopsTheTop : Prop :=
  (∀ s : State, s.config.retPolicy = .corrected → ∃ t, exec .ret s = .next t ∧
    t.pc = s.memRead (s.reg 7) ∧
    (t.reg 7).toNat = ((s.reg 7).toNat + 1) % 256 ∧
    RegsKept [7] s t ∧ MemKept s t ∧ FlagsKept s t ∧ OutRunConfigKept s t) ∧
  RunsZ .ret .ret

/-- R120. -/
def Obligations.JmpSetsPcFromRegister : Prop :=
  (∀ (a : Reg) (s : State), ∃ t, exec (.jmp a) s = .next t ∧
    t.pc = s.reg a ∧
    RegsKept [] s t ∧ MemKept s t ∧ FlagsKept s t ∧ OutRunConfigKept s t) ∧
  RunsR .jmp .jmp

/-- R121: taken exactly when Equal is set; the bad-register exception is raised whether or not it would be taken. -/
def Obligations.JeqBranchesOnEqual : Prop :=
  (∀ (a : Reg) (s : State), ∃ t, exec (.jeq a) s = .next t ∧
    (s.flags.equal = true → t.pc = s.reg a) ∧
    (s.flags.equal = false → t.pc.toNat = (s.pc.toNat + 2) % 256) ∧
    RegsKept [] s t ∧ MemKept s t ∧ FlagsKept s t ∧ OutRunConfigKept s t) ∧
  RunsR .jeq .jeq

/-- R122: taken exactly when Equal is not set, all flags clear included; the exact complement of JEQ. -/
def Obligations.JneBranchesOnNotEqual : Prop :=
  (∀ (a : Reg) (s : State), ∃ t, exec (.jne a) s = .next t ∧
    (s.flags.equal = false → t.pc = s.reg a) ∧
    (s.flags.equal = true → t.pc.toNat = (s.pc.toNat + 2) % 256) ∧
    RegsKept [] s t ∧ MemKept s t ∧ FlagsKept s t ∧ OutRunConfigKept s t) ∧
  RunsR .jne .jne

/-! ### Encoding and decoding -/

/-- Decoding an encoding gives the instruction back, under every injective opcode map, for every instruction and operand,
whatever bytes follow it. -/
def Obligations.DecodeOfEncodeIsIdentity : Prop :=
  ∀ (o : OpcodeMap) (i : Instr) (x y : Byte), o.wf →
    decode o ((encode o i ++ [x, y]).getD 0 0#8) ((encode o i ++ [x, y]).getD 1 0#8)
      ((encode o i ++ [x, y]).getD 2 0#8) = .ok i

/-- The other direction: what decodes is its instruction's encoding and nothing else, under any opcode map. -/
def Obligations.EncodeOfDecodeIsTheFetchedBytes : Prop :=
  ∀ (o : OpcodeMap) (ir opa opb : Byte) (i : Instr), decode o ir opa opb = .ok i →
    encode o i = [ir, opa, opb].take i.length

/-- R58: the decoder is total; it accepts exactly the 13 opcodes with legal register operands, and names every other case
by the first check that fails: opcode, operand A, operand B (R133; the spec's decisions D4 and D18, log entries 8
and 16). -/
def Obligations.DecoderAcceptsExactlyTheTable : Prop :=
  ∀ (o : OpcodeMap) (ir opa opb : Byte), o.wf →
    ((∃ i, decode o ir opa opb = .ok i) ↔ ∃ m, o.byte m = ir ∧ (RawInstr.mk m opa opb).wf = true) ∧
    ((∀ m, o.byte m ≠ ir) → decode o ir opa opb = .error (.illegalOpcode ir)) ∧
    ∀ m, o.byte m = ir →
      (m.format ≠ .z → 7 < opa.toNat → decode o ir opa opb = .error (.illegalRegister opa)) ∧
      (m.format = .rr → opa.toNat ≤ 7 → 7 < opb.toNat → decode o ir opa opb = .error (.illegalRegister opb))

/-- R56: under any injective opcode map exactly 243 of the 256 byte values are no opcode, and under the default map 0x00 is
one of them (the default map is log entry 1). -/
def Obligations.IllegalOpcodesAreTheOther243 : Prop :=
  (∀ o : OpcodeMap, o.wf →
    ((List.range 256).filter (fun n => (o.lookup (BitVec.ofNat 8 n)).isNone)).length = 243) ∧
  defaultOpcodes.wf ∧ defaultOpcodes.lookup 0#8 = none

/-- Words written out bit by bit from the encodings of the 13 rules, default opcode bytes (log entry 1). -/
def Obligations.WordsDecodeToTheirInstructions : Prop :=
  decode defaultOpcodes 0b10000010#8 0b00000111#8 0b10000001#8 = .ok (.ldi 7 129#8) ∧
  decode defaultOpcodes 0b01000111#8 0b00000101#8 0b11111111#8 = .ok (.prn 5) ∧
  decode defaultOpcodes 0b00000001#8 0b11111111#8 0b11111111#8 = .ok .hlt ∧
  decode defaultOpcodes 0b10100010#8 0b00000110#8 0b00000001#8 = .ok (.mul 6 1) ∧
  decode defaultOpcodes 0b10100000#8 0b00000010#8 0b00000100#8 = .ok (.add 2 4) ∧
  decode defaultOpcodes 0b10100111#8 0b00000011#8 0b00000101#8 = .ok (.cmp 3 5) ∧
  decode defaultOpcodes 0b01000101#8 0b00000100#8 0b00000000#8 = .ok (.push 4) ∧
  decode defaultOpcodes 0b01000110#8 0b00000010#8 0b00000000#8 = .ok (.pop 2) ∧
  decode defaultOpcodes 0b01010000#8 0b00000001#8 0b00000000#8 = .ok (.call 1) ∧
  decode defaultOpcodes 0b00010001#8 0b11111111#8 0b11111111#8 = .ok .ret ∧
  decode defaultOpcodes 0b01010100#8 0b00000000#8 0b00000000#8 = .ok (.jmp 0) ∧
  decode defaultOpcodes 0b01010101#8 0b00000110#8 0b00000000#8 = .ok (.jeq 6) ∧
  decode defaultOpcodes 0b01010110#8 0b00000011#8 0b00000000#8 = .ok (.jne 3)

/-! ### The step -/

/-- R71, R74: a step of a running core is `exec` of the instruction its three bytes decode to, at that same state: nothing
is added to `pc` around it. The wrap of `pc + 1` and `pc + 2` is the spec's decision D3 (log entry 7). -/
def Obligations.StepRunsTheDecodedInstruction : Prop :=
  ∀ (s : State) (i : Instr), s.run = .running → Decodes s i → step s = exec i s

/-- Every instruction may be executed at any time: there is no state in which one is refused or stops (R141). -/
def Obligations.EveryInstructionCompletesFromEveryState : Prop :=
  ∀ (i : Instr) (s : State), ∃ t, exec i s = .next t

/-- R70: a step is defined exactly when the core runs, and a stopped core stays stopped for any number of steps. That a step
asked of a stopped core is the outcome `fault`, with the reason `coreHalted` or `coreFaulted`, is the model's own form of
"there is no step" (DEDUCED, log entry 12). -/
def Obligations.StepIsDefinedExactlyWhenRunning : Prop :=
  (∀ s : State, (∃ t, step s = .next t) ↔ s.run = .running) ∧
  (∀ s : State, s.run = .halted → step s = .fault .coreHalted) ∧
  (∀ (s : State) (c : FaultCause), s.run = .faulted c → step s = .fault (.coreFaulted c)) ∧
  (∀ (s : State) (k : Nat), s.run ≠ .running → ∀ t, Sys2Proof.core.run (k + 1) s ≠ .next t)

/-- R72, R131: an opcode byte of no row raises IllegalOpcode of that byte, with every other piece of state unchanged; the
host sees status 1 and no further instruction is executed. That the next step's outcome is `fault coreFaulted` is the
model's own form of the last clause (DEDUCED, log entry 12). -/
def Obligations.UnknownOpcodeRaisesIllegalOpcode : Prop :=
  ∀ s : State, s.run = .running → (∀ m, s.config.opcodes.byte m ≠ s.memRead s.pc) →
    ∃ t, step s = .next t ∧ t = { s with run := .faulted (.illegalOpcode (s.memRead s.pc)) } ∧
      t.status = some 1 ∧ step t = .fault (.coreFaulted (.illegalOpcode (s.memRead s.pc)))

/-- R73, R132, R133: the operand check of every row, by its format, operand A first; bytes the format does not use are not
checked. The trap and the order are the spec's decisions D4 and D18 (log entries 8 and 16). -/
def Obligations.BadRegisterOperandRaisesIllegalRegister : Prop :=
  ∀ (s : State) (m : Mnemonic) (opa opb : Byte), AtInstr s m opa opb →
    (m.format ≠ .z → 7 < opa.toNat → Raises s (.illegalRegister opa)) ∧
    (m.format = .rr → opa.toNat ≤ 7 → 7 < opb.toNat → Raises s (.illegalRegister opb)) ∧
    ((RawInstr.mk m opa opb).wf = true → ∃ i, i.mnemonic = m ∧ step s = exec i s)

/-- R75, R137, R138: a step that ends faulted has had no other effect, its bytes were rejected by the decoder, and its
cause is one of the two that exist (R95, R130). The spec's decisions D7 and D17 (log entries 11 and 17). -/
def Obligations.FaultsArePreciseAndChangeOnlyTheRunState : Prop :=
  ∀ (s t : State) (c : FaultCause), step s = .next t → t.run = .faulted c →
    t = { s with run := .faulted c } ∧ Rejects s c ∧
      ((∃ ir, c = .illegalOpcode ir) ∨ ∃ v, c = .illegalRegister v)

/-- R76 with the table of R14: over one step, a register changes only if the decoded instruction writes it; flags only by
CMP; memory only by PUSH, CALL and literal RET; the output stream only by PRN, by one byte; the run state only by HLT and
a fault; the configuration never. -/
def Obligations.StepChangesOnlyWhatTheInstructionNames : Prop :=
  ∀ s t : State, step s = .next t →
    t.config = s.config ∧
    (∀ r, t.reg r ≠ s.reg r → ∃ i, Decodes s i ∧ r ∈ writtenRegs s.config.retPolicy i) ∧
    (t.flags ≠ s.flags → ∃ a b, Decodes s (.cmp a b)) ∧
    (t.mem ≠ s.mem → (∃ a, Decodes s (.push a)) ∨ (∃ a, Decodes s (.call a)) ∨
      (Decodes s .ret ∧ s.config.retPolicy = .literal)) ∧
    (t.out ≠ s.out → ∃ a, Decodes s (.prn a) ∧ t.out = s.out ++ [s.reg a]) ∧
    (t.run ≠ s.run → (Decodes s .hlt ∧ t.run = .halted) ∨ ∃ c, Rejects s c ∧ t.run = .faulted c)

/-- R16: how a step leaves `pc`, for every instruction and for a fault. The HLT and fault rows are the spec's decisions D6
and D7 (log entry 11), the wrap is D3 (log entry 7). That CALL R7 goes to the decremented pointer is not in R16's table: it
is R100 and R110, the spec's decision D11 (log entry 9). -/
def Obligations.StepLeavesPcAsTabulated : Prop :=
  ∀ s t : State, step s = .next t →
    (∀ i, Decodes s i → t.pc = nextPc s i) ∧ ∀ c, Rejects s c → t.pc = s.pc

/-! ### Invariants -/

/-- Every step keeps the invariant: canonical memory, at most one flag set, an injective opcode map, no fault that nothing
raises. -/
def Obligations.StepKeepsTheInvariant : Prop :=
  ∀ s t : State, s.Inv → step s = .next t → t.Inv

/-- Any number of steps keeps the invariant, from any state that has it. -/
def Obligations.RunKeepsTheInvariant : Prop :=
  ∀ (k : Nat) (s t : State), s.Inv → Sys2Proof.core.run k s = .next t → t.Inv

/-- The reset state, and every launch and reset of a machine whose image is canonical and whose opcode map is injective,
has the invariant. -/
def Obligations.ResetHasTheInvariant : Prop :=
  State.reset.Inv ∧
  (∀ (c : Config) (m : Memory), c.opcodes.wf → m.wf → (State.launch c m).Inv) ∧
  (∀ s : State, s.Inv → s.applyReset.Inv)

/-- R17: exactly one flag is set after a comparison, and from then on after every step. -/
def Obligations.ExactlyOneFlagAfterAComparison : Prop :=
  (∀ (a b : Reg) (s t : State), exec (.cmp a b) s = .next t → t.flags.exactlyOne) ∧
  (∀ s t : State, s.flags.exactlyOne → step s = .next t → t.flags.exactlyOne)

/-! ### What is never read -/

/-- R18: CMP is the only writer of the flags and overwrites them whatever they were; JEQ and JNE are the only readers; and
no step depends on Less or Greater: two states that differ in those alone step to states that agree but for flags. -/
def Obligations.FlagsAreWrittenByCmpAndOnlyEqualIsRead : Prop :=
  (∀ (i : Instr) (s t : State), (∀ a b, i ≠ .cmp a b) → exec i s = .next t → t.flags = s.flags) ∧
  (∀ (a b : Reg) (s t : State) (f : Flags), exec (.cmp a b) s = .next t →
    exec (.cmp a b) { s with flags := f } = .next t) ∧
  (∀ (i : Instr) (s t : State) (f : Flags), (∀ a, i ≠ .jeq a ∧ i ≠ .jne a) → exec i s = .next t →
    ∃ g, (g = t.flags ∨ g = f) ∧ exec i { s with flags := f } = .next { t with flags := g }) ∧
  (∀ (s t : State) (f : Flags), f.equal = s.flags.equal → step s = .next t →
    ∃ g, (g = t.flags ∨ g = f) ∧ step { s with flags := f } = .next { t with flags := g })

/-- R23: the output stream grows by at most one byte a step, and nothing flows back from it. -/
def Obligations.OutputStreamIsNeverRead : Prop :=
  ∀ (s t : State) (o : List Byte), step s = .next t →
    ∃ e : List Byte, e.length ≤ 1 ∧ t.out = s.out ++ e ∧
      step { s with out := o } = .next { t with out := o ++ e }

/-- R30, R44: the data accesses of the instructions. The nine that touch memory only through their fetch neither read nor
write it; PUSH and CALL write one cell and read none; POP and RET read the top cell alone, and literal RET writes it. The values written are those of R101, R110 and R111; that PUSH
R7 stores the decremented pointer is R100 and R101, the spec's decision D11 (log entry 9). -/
def Obligations.DataAccessesAreThoseTabulated : Prop :=
  (∀ (i : Instr) (s t : State) (m : Memory),
    (∀ a, i ≠ .push a ∧ i ≠ .pop a ∧ i ≠ .call a) → i ≠ .ret → exec i s = .next t →
      t.mem = s.mem ∧ exec i { s with mem := m } = .next { t with mem := m }) ∧
  (∀ (a : Reg) (s t : State) (m : Memory), exec (.push a) s = .next t →
    exec (.push a) { s with mem := m } =
      .next { t with mem := Memory.write m (s.reg 7 - 1#8) (if a = 7 then s.reg 7 - 1#8 else s.reg a) }) ∧
  (∀ (a : Reg) (s t : State) (m : Memory), exec (.call a) s = .next t →
    exec (.call a) { s with mem := m } =
      .next { t with mem := Memory.write m (s.reg 7 - 1#8) (s.pc + 2#8) }) ∧
  (∀ (a : Reg) (s t : State) (m : Memory), Memory.read m (s.reg 7) = s.memRead (s.reg 7) →
    exec (.pop a) s = .next t → exec (.pop a) { s with mem := m } = .next { t with mem := m }) ∧
  (∀ (s t : State) (m : Memory), Memory.read m (s.reg 7) = s.memRead (s.reg 7) → exec .ret s = .next t →
    exec .ret { s with mem := m } =
      .next { t with mem := (if s.config.retPolicy = .literal
        then Memory.write m (s.reg 7) (s.reg 7 + 1#8) else m) })

/-- R5, R55: no instruction's effect depends on the opcode bytes, and only RET's depends on `RET_POLICY`. -/
def Obligations.ConfigurationIsReadByDecodeAndRetOnly : Prop :=
  (∀ (i : Instr) (s t : State) (o : OpcodeMap), exec i s = .next t →
    exec i { s with config := { s.config with opcodes := o } } =
      .next { t with config := { s.config with opcodes := o } }) ∧
  (∀ (i : Instr) (s t : State) (c : Config), i ≠ .ret → exec i s = .next t →
    exec i { s with config := c } = .next { t with config := c })

/-! ### Sequences -/

/-- R103: PUSH then POP moves a register, restores the stack pointer, wrap included, and changes one cell. -/
def Obligations.PushThenPopIsBalanced : Prop :=
  ∀ (r r2 : Reg) (s : State), r ≠ 7 → r2 ≠ 7 →
    ∃ t u, exec (.push r) s = .next t ∧ exec (.pop r2) t = .next u ∧
      u.reg r2 = s.reg r ∧ u.reg 7 = s.reg 7 ∧
      u.memRead (s.reg 7 - 1#8) = s.reg r ∧
      RegsKept [r2] s u ∧ MemKeptBut (s.reg 7 - 1#8) s u

/-- R114: a RET reached with the stack pointer and the top cell as a CALL left them resumes 2 bytes past the CALL's start,
under both policies; `corrected` restores the stack pointer, `literal` leaves it one low with the leaked cell on top. -/
def Obligations.RetReturnsPastItsCall : Prop :=
  ∀ (a : Reg) (s t u : State), exec (.call a) s = .next t →
    u.reg 7 = t.reg 7 → u.memRead (u.reg 7) = t.memRead (t.reg 7) →
    ∃ v, exec .ret u = .next v ∧
      v.pc.toNat = (s.pc.toNat + 2) % 256 ∧
      (u.config.retPolicy = .corrected → v.reg 7 = s.reg 7 ∧ MemKept u v) ∧
      (u.config.retPolicy = .literal →
        (v.reg 7).toNat = ((s.reg 7).toNat + 255) % 256 ∧ v.memRead (v.reg 7) = v.reg 7 + 1#8)

/-- R114(c): after a literal RET the leaked cell is on top, so a POP gets the stack pointer plus one, and a second RET, the
outer one of a nested call, goes to that address instead of to its caller. -/
def Obligations.LiteralRetLeaksACell : Prop :=
  ∀ s t : State, s.config.retPolicy = .literal → exec .ret s = .next t →
    (∃ u, exec .ret t = .next u ∧ u.pc = s.reg 7 + 1#8) ∧
    ∀ a : Reg, a ≠ 7 → ∃ u, exec (.pop a) t = .next u ∧ u.reg a = s.reg 7 + 1#8

/-- R120: a JMP through a register that holds its own address is an endless loop that changes nothing. -/
def Obligations.JmpToItselfRunsForever : Prop :=
  ∀ (s : State) (a : Reg) (opa opb : Byte), AtInstr s .jmp opa opb → opa.toNat = a.val → s.reg a = s.pc →
    ∀ k : Nat, Sys2Proof.core.run k s = .next s

/-- R42: a pushed byte is fetched by the very next step. Here a PUSH writes the cell right after itself with a byte that is
no opcode, and the next step raises IllegalOpcode of that byte. -/
def Obligations.PushedByteIsFetchedByTheNextStep : Prop :=
  ∀ (s : State) (a : Reg) (opa opb : Byte), AtInstr s .push opa opb → opa.toNat = a.val → a ≠ 7 →
    s.reg 7 - 1#8 = s.pc + 2#8 → (∀ m, s.config.opcodes.byte m ≠ s.reg a) →
    ∃ t, step s = .next t ∧ Raises t (.illegalOpcode (s.reg a))

/-- R42: a PUSH that overwrites the cell it stands in still executes with the bytes it fetched, and the byte is fetched as
written when that address is fetched again. -/
def Obligations.PushOverItselfStillPushes : Prop :=
  ∀ (s : State) (a : Reg) (opa opb : Byte), AtInstr s .push opa opb → opa.toNat = a.val → a ≠ 7 →
    s.reg 7 - 1#8 = s.pc →
    ∃ t, step s = .next t ∧ t.memRead s.pc = s.reg a ∧ t.reg 7 = s.pc ∧ t.pc = s.pc + 2#8

/-! ### Memory and arithmetic -/

/-- R20: two memories in the canonical form that read alike in all 256 cells are the same data. -/
def Obligations.CanonicalMemoriesThatReadAlikeAreEqual : Prop :=
  ∀ m n : Memory, m.wf → n.wf → (∀ a : Addr, Memory.read m a = Memory.read n a) → m = n

/-- R90: ADD and MUL are also correct modulo 256 for software that reads the bytes as two's complement. The wraparound is
the spec's decision D2 (log entry 6). -/
def Obligations.AddAndMulAreCorrectForSignedBytes : Prop :=
  (∀ (a b : Reg) (s : State), ∃ t, exec (.add a b) s = .next t ∧
    (t.reg a).toInt = ((s.reg a).toInt + (s.reg b).toInt).bmod 256) ∧
  (∀ (a b : Reg) (s : State), ∃ t, exec (.mul a b) s = .next t ∧
    (t.reg a).toInt = ((s.reg a).toInt * (s.reg b).toInt).bmod 256)

/-! ### Reset, loading, status -/

/-- R26, R150, R153: the reset state, and reset from any state, a stopped one included: memory and the configuration the
machine is built with are kept, everything else takes its reset value. `pc`, `x[7]`, the flags and the run state are the
source's; registers 0 to 6 are the spec's decision D8 (log entry 4), the zero fill is the model's DESIGN CHOICE after D9
(log entry 5), reset at any time the spec's decision D20 (log entry 15), the default configuration log entries 1 and 2. -/
def Obligations.ResetStateIsAsTabulated : Prop :=
  (∀ a : Addr, State.reset.memRead a = 0#8) ∧
  State.reset.config = { opcodes := defaultOpcodes, retPolicy := .literal } ∧
  State.reset.applyReset = State.reset ∧
  (∀ s : State, s.applyReset.pc = 0#8 ∧ s.applyReset.reg 7 = 255#8 ∧ (∀ r : Reg, r ≠ 7 → s.applyReset.reg r = 0#8) ∧
    s.applyReset.flags = { less := false, greater := false, equal := false } ∧
    s.applyReset.run = .running ∧ s.applyReset.out = [] ∧ MemKept s s.applyReset ∧ s.applyReset.config = s.config) ∧
  (∀ s t : State, s.mem = t.mem → s.config = t.config → s.applyReset = t.applyReset)

/-- R24, R151, R152: loading puts the program's bytes at addresses 0, 1, 2, ... and the fill byte in every other cell (the
model's DESIGN CHOICE after D9, log entry 5), with every other piece of state at its reset value (R26; registers 0 to 6
are the spec's decision D8, log entry 4), so that a running core starts at address 0; more than 256 bytes cannot be
loaded. -/
def Obligations.LoadingFillsMemoryFromAddressZero : Prop :=
  ∀ (s : State) (program : List Byte),
    (program.length ≤ 256 → ∃ t, s.load program = some t ∧
      (∀ a : Addr, t.memRead a = program.getD a.toNat 0#8) ∧
      t.run = .running ∧ t.pc = 0#8 ∧ t.reg 7 = 255#8 ∧ (∀ r : Reg, r ≠ 7 → t.reg r = 0#8) ∧
      t.flags = { less := false, greater := false, equal := false } ∧ t.out = [] ∧ t.config = s.config) ∧
    (256 < program.length → s.load program = none)

/-- The very next step after an opcode-table word is placed runs the instruction it decodes to, from any state; placing it
changes the three cells at `pc`, the run state and the opcode map alone. The model's own convention (log entry 13). -/
def Obligations.PlacedTableWordIsRunNext : Prop :=
  ∀ (s : State) (nbits w : Nat) (i : Instr), decodeTableWord nbits w = some i →
    step (s.withFetchWord nbits w) = exec i (s.withFetchWord nbits w) ∧
    RegsKept [] s (s.withFetchWord nbits w) ∧ (s.withFetchWord nbits w).pc = s.pc ∧
    FlagsKept s (s.withFetchWord nbits w) ∧ (s.withFetchWord nbits w).out = s.out ∧
    (s.withFetchWord nbits w).config.retPolicy = s.config.retPolicy ∧
    ∀ a : Addr, a ≠ s.pc → a ≠ s.pc + 1#8 → a ≠ s.pc + 2#8 →
      (s.withFetchWord nbits w).memRead a = s.memRead a

/-- R25: the termination status. Status 1 for IllegalRegister is the value R25 gives the spec's own fault cause, its decision
D19 (log entry 17). -/
def Obligations.StatusReportsHowTheRunEnded : Prop :=
  ∀ s : State,
    (s.run = .running → s.status = none) ∧
    (s.run = .halted → s.status = some 0) ∧
    (∀ ir, s.run = .faulted (.illegalOpcode ir) → s.status = some 1) ∧
    (∀ v, s.run = .faulted (.illegalRegister v) → s.status = some 1)
end

