-- ==== Sys2Proof/Laws/Decode.lean ====
section
/-! SUPPORT. What the decoder's parts answer (R53, R56, R58, R73). -/

namespace Sys2Proof

/-- Every mnemonic is a row of the opcode map. -/
theorem Mnemonic.mem_all (m : Mnemonic) : m ∈ Mnemonic.all := by
  cases m <;> decide

theorem OpcodeMap.toList_eq (o : OpcodeMap) : o.toList = Mnemonic.all.map o.byte := rfl

/-- On a well-formed opcode map the byte of a row determines the row (R5). -/
theorem OpcodeMap.byte_inj {o : OpcodeMap} (h : o.wf) {m n : Mnemonic} (e : o.byte m = o.byte n) : m = n :=
  List.inj_on_of_nodup_map (o.toList_eq ▸ h) m.mem_all n.mem_all e

/-- The lookup answers a row only if that row has the byte (R56). -/
theorem OpcodeMap.byte_of_lookup {o : OpcodeMap} {ir : Byte} {m : Mnemonic} (h : o.lookup ir = some m) :
    o.byte m = ir := by
  simpa using List.find?_some h

/-- On a well-formed opcode map the byte of a row is looked up as that row (R56). -/
theorem OpcodeMap.lookup_byte {o : OpcodeMap} (h : o.wf) (m : Mnemonic) : o.lookup (o.byte m) = some m := by
  cases hl : o.lookup (o.byte m) with
  | none => simpa using List.find?_eq_none.1 hl m m.mem_all
  | some n => rw [OpcodeMap.byte_inj h (OpcodeMap.byte_of_lookup hl)]

/-- The lookup fails exactly on the bytes of no row (R56). -/
theorem OpcodeMap.lookup_eq_none {o : OpcodeMap} {ir : Byte} : o.lookup ir = none ↔ ∀ m, o.byte m ≠ ir := by
  simp [OpcodeMap.lookup, List.find?_eq_none, Mnemonic.mem_all]

/-- A register operand byte of at most 7 is its own index (R53). -/
theorem regOperand_ok {v : Byte} {a : Reg} (h : v.toNat = a.val) : regOperand v = .ok a := by
  simp [regOperand, h]

/-- A register operand byte above 7 is rejected by name (R53). -/
theorem regOperand_error {v : Byte} (h : 7 < v.toNat) : regOperand v = .error (.illegalRegister v) := by
  simp [regOperand, show ¬v.toNat < 8 by omega]

/-- The two answers of a register operand (R53). -/
theorem regOperand_cases (v : Byte) :
    (∃ a : Reg, v.toNat = a.val ∧ regOperand v = .ok a) ∨
      (7 < v.toNat ∧ regOperand v = .error (.illegalRegister v)) := by
  by_cases h : v.toNat < 8
  · exact .inl ⟨⟨v.toNat, h⟩, rfl, regOperand_ok rfl⟩
  · exact .inr ⟨by omega, regOperand_error (by omega)⟩

theorem regByte_toNat (a : Reg) : (regByte a).toNat = a.val := by
  have := a.isLt
  simp only [regByte, BitVec.toNat_ofNat]
  omega

@[simp] theorem regOperand_regByte (a : Reg) : regOperand (regByte a) = .ok a :=
  regOperand_ok (regByte_toNat a)

/-- An operand byte that is a register's index is that register's encoding. -/
theorem regByte_eq {v : Byte} {a : Reg} (h : v.toNat = a.val) : regByte a = v :=
  BitVec.eq_of_toNat_eq (by rw [regByte_toNat, h])

/-- Decoding a byte of the opcode map leaves the operand check of its row (R72, R73). -/
theorem decode_byte {o : OpcodeMap} (h : o.wf) (m : Mnemonic) (opa opb : Byte) :
    decode o (o.byte m) opa opb = decodeOperands m opa opb := by
  simp [decode, OpcodeMap.lookup_byte h]

/-- Decoding a byte of no row is rejected by name (R72). -/
theorem decode_illegalOpcode {o : OpcodeMap} {ir : Byte} (h : ∀ m, o.byte m ≠ ir) (opa opb : Byte) :
    decode o ir opa opb = .error (.illegalOpcode ir) := by
  simp [decode, OpcodeMap.lookup_eq_none.2 h]

theorem decodeR_eq (mk : Reg → Instr) (opa : Byte) :
    decodeR mk opa = match regOperand opa with | .error c => .error c | .ok a => .ok (mk a) := rfl

/-- Format `R`: the two answers (R73). -/
theorem decodeR_cases (mk : Reg → Instr) (opa : Byte) :
    (∃ a : Reg, opa.toNat = a.val ∧ decodeR mk opa = .ok (mk a)) ∨
      (7 < opa.toNat ∧ decodeR mk opa = .error (.illegalRegister opa)) := by
  rcases regOperand_cases opa with ⟨a, ha, e⟩ | ⟨ha, e⟩
  · exact .inl ⟨a, ha, by simp [decodeR, e]⟩
  · exact .inr ⟨ha, by simp [decodeR, e]⟩

/-- Format `RR`: the three answers, operand A first (R73, R133). -/
theorem decodeRR_cases (mk : Reg → Reg → Instr) (opa opb : Byte) :
    (∃ a b : Reg, opa.toNat = a.val ∧ opb.toNat = b.val ∧ decodeRR mk opa opb = .ok (mk a b)) ∨
      (7 < opa.toNat ∧ decodeRR mk opa opb = .error (.illegalRegister opa)) ∨
      (opa.toNat ≤ 7 ∧ 7 < opb.toNat ∧ decodeRR mk opa opb = .error (.illegalRegister opb)) := by
  rcases regOperand_cases opa with ⟨a, ha, e⟩ | ⟨ha, e⟩
  · have := a.isLt
    rcases decodeR_cases (mk a) opb with ⟨b, hb, e'⟩ | ⟨hb, e'⟩
    · exact .inl ⟨a, b, ha, hb, by simp [decodeRR, e, e']⟩
    · exact .inr (.inr ⟨by omega, hb, by simp [decodeRR, e, e']⟩)
  · exact .inr (.inl ⟨ha, by simp [decodeRR, e]⟩)

/-- Every rejection of the operand check is IllegalRegister of an operand byte above 7 (R73). -/
theorem decodeOperands_error {m : Mnemonic} {opa opb : Byte} {c : FaultCause}
    (h : decodeOperands m opa opb = .error c) :
    ∃ v : Byte, 7 < v.toNat ∧ c = .illegalRegister v ∧ (v = opa ∨ v = opb) := by
  have one : ∀ (mk : Reg → Instr) (v : Byte), decodeR mk v = .error c → 7 < v.toNat ∧ c = .illegalRegister v := by
    intro mk v hv
    rcases decodeR_cases mk v with ⟨a, _, e⟩ | ⟨hlt, e⟩
    · simp [e] at hv
    · exact ⟨hlt, by simpa [e] using hv.symm⟩
  have two : ∀ mk : Reg → Reg → Instr, decodeRR mk opa opb = .error c →
      ∃ v : Byte, 7 < v.toNat ∧ c = .illegalRegister v ∧ (v = opa ∨ v = opb) := by
    intro mk hv
    rcases decodeRR_cases mk opa opb with ⟨a, b, _, _, e⟩ | ⟨hlt, e⟩ | ⟨_, hlt, e⟩
    · simp [e] at hv
    · exact ⟨opa, hlt, by simpa [e] using hv.symm, .inl rfl⟩
    · exact ⟨opb, hlt, by simpa [e] using hv.symm, .inr rfl⟩
  have oneA : ∀ mk : Reg → Instr, decodeR mk opa = .error c →
      ∃ v : Byte, 7 < v.toNat ∧ c = .illegalRegister v ∧ (v = opa ∨ v = opb) :=
    fun mk hv => ⟨opa, (one mk opa hv).1, (one mk opa hv).2, .inl rfl⟩
  cases m <;> first | exact oneA _ h | exact two _ h | cases h

/-- Every rejection of the decoder is one of the two faults of decode, of a byte it was given (R58, R130). -/
theorem decode_error {o : OpcodeMap} {ir opa opb : Byte} {c : FaultCause} (h : decode o ir opa opb = .error c) :
    (c = .illegalOpcode ir ∧ ∀ m, o.byte m ≠ ir) ∨
      ∃ v : Byte, 7 < v.toNat ∧ c = .illegalRegister v ∧ (v = opa ∨ v = opb) := by
  unfold decode at h
  cases hl : o.lookup ir with
  | none => exact .inl ⟨by simpa [hl] using h.symm, OpcodeMap.lookup_eq_none.1 hl⟩
  | some m => exact .inr (decodeOperands_error (by simpa [hl] using h))

/-- What the operand check accepts belongs to the row it was given (R74). -/
theorem decodeOperands_mnemonic {m : Mnemonic} {opa opb : Byte} {i : Instr}
    (h : decodeOperands m opa opb = .ok i) : i.mnemonic = m := by
  have one : ∀ (mk : Reg → Instr) (v : Byte), decodeR mk v = .ok i → ∃ a, i = mk a := by
    intro mk v hv
    rcases decodeR_cases mk v with ⟨a, _, e⟩ | ⟨_, e⟩
    · exact ⟨a, by simpa [e] using hv.symm⟩
    · simp [e] at hv
  have two : ∀ mk : Reg → Reg → Instr, decodeRR mk opa opb = .ok i → ∃ a b, i = mk a b := by
    intro mk hv
    rcases decodeRR_cases mk opa opb with ⟨a, b, _, _, e⟩ | ⟨_, e⟩ | ⟨_, _, e⟩
    · exact ⟨a, b, by simpa [e] using hv.symm⟩
    · simp [e] at hv
    · simp [e] at hv
  cases m <;>
    first
    | (obtain ⟨a, rfl⟩ := one _ _ h; rfl)
    | (obtain ⟨a, b, rfl⟩ := two _ h; rfl)
    | (cases h; rfl)

/-- What the decoder accepts starts with its row's opcode byte (R56, R72). -/
theorem decode_ok_byte {o : OpcodeMap} {ir opa opb : Byte} {i : Instr} (h : decode o ir opa opb = .ok i) :
    o.byte i.mnemonic = ir := by
  unfold decode at h
  cases hl : o.lookup ir with
  | none => simp [hl] at h
  | some m =>
    rw [decodeOperands_mnemonic (by simpa [hl] using h)]
    exact OpcodeMap.byte_of_lookup hl

end Sys2Proof
end

