-- ==== Sys2Proof/Laws/State.lean ====
section
/-! SUPPORT. The fields of the state after each primitive update, one lemma per field per update, and the derived
operations written as primitives: after `simp`, every state reached in a step is a chain of primitive updates read
field by field. -/

namespace Sys2Proof.Machine

/-! ### `State.setReg` -/

@[simp] theorem State.setReg_regs (s : State) (r : Reg) (v : Byte) : (s.setReg r v).regs = s.regs.set r v := rfl
@[simp] theorem State.setReg_pc (s : State) (r : Reg) (v : Byte) : (s.setReg r v).pc = s.pc := rfl
@[simp] theorem State.setReg_flags (s : State) (r : Reg) (v : Byte) : (s.setReg r v).flags = s.flags := rfl
@[simp] theorem State.setReg_run (s : State) (r : Reg) (v : Byte) : (s.setReg r v).run = s.run := rfl
@[simp] theorem State.setReg_mem (s : State) (r : Reg) (v : Byte) : (s.setReg r v).mem = s.mem := rfl
@[simp] theorem State.setReg_out (s : State) (r : Reg) (v : Byte) : (s.setReg r v).out = s.out := rfl
@[simp] theorem State.setReg_config (s : State) (r : Reg) (v : Byte) : (s.setReg r v).config = s.config := rfl
@[simp] theorem State.setReg_memRead (s : State) (r : Reg) (v : Byte) (b : Addr) : (s.setReg r v).memRead b = s.memRead b := rfl
@[simp] theorem State.setReg_after (s : State) (r : Reg) (v : Byte) (n : Nat) : (s.setReg r v).after n = s.after n := rfl

/-! ### `State.memWrite` -/

@[simp] theorem State.memWrite_regs (s : State) (a : Addr) (v : Byte) : (s.memWrite a v).regs = s.regs := rfl
@[simp] theorem State.memWrite_pc (s : State) (a : Addr) (v : Byte) : (s.memWrite a v).pc = s.pc := rfl
@[simp] theorem State.memWrite_flags (s : State) (a : Addr) (v : Byte) : (s.memWrite a v).flags = s.flags := rfl
@[simp] theorem State.memWrite_run (s : State) (a : Addr) (v : Byte) : (s.memWrite a v).run = s.run := rfl
@[simp] theorem State.memWrite_mem (s : State) (a : Addr) (v : Byte) : (s.memWrite a v).mem = Memory.write s.mem a v := rfl
@[simp] theorem State.memWrite_out (s : State) (a : Addr) (v : Byte) : (s.memWrite a v).out = s.out := rfl
@[simp] theorem State.memWrite_config (s : State) (a : Addr) (v : Byte) : (s.memWrite a v).config = s.config := rfl
@[simp] theorem State.memWrite_reg (s : State) (a : Addr) (v : Byte) (q : Reg) : (s.memWrite a v).reg q = s.reg q := rfl
@[simp] theorem State.memWrite_after (s : State) (a : Addr) (v : Byte) (n : Nat) : (s.memWrite a v).after n = s.after n := rfl

/-! ### `State.setPc` -/

@[simp] theorem State.setPc_regs (s : State) (p : Addr) : (s.setPc p).regs = s.regs := rfl
@[simp] theorem State.setPc_pc (s : State) (p : Addr) : (s.setPc p).pc = p := rfl
@[simp] theorem State.setPc_flags (s : State) (p : Addr) : (s.setPc p).flags = s.flags := rfl
@[simp] theorem State.setPc_run (s : State) (p : Addr) : (s.setPc p).run = s.run := rfl
@[simp] theorem State.setPc_mem (s : State) (p : Addr) : (s.setPc p).mem = s.mem := rfl
@[simp] theorem State.setPc_out (s : State) (p : Addr) : (s.setPc p).out = s.out := rfl
@[simp] theorem State.setPc_config (s : State) (p : Addr) : (s.setPc p).config = s.config := rfl
@[simp] theorem State.setPc_reg (s : State) (p : Addr) (q : Reg) : (s.setPc p).reg q = s.reg q := rfl
@[simp] theorem State.setPc_memRead (s : State) (p : Addr) (b : Addr) : (s.setPc p).memRead b = s.memRead b := rfl

/-! ### `State.setFlags` -/

@[simp] theorem State.setFlags_regs (s : State) (f : Flags) : (s.setFlags f).regs = s.regs := rfl
@[simp] theorem State.setFlags_pc (s : State) (f : Flags) : (s.setFlags f).pc = s.pc := rfl
@[simp] theorem State.setFlags_flags (s : State) (f : Flags) : (s.setFlags f).flags = f := rfl
@[simp] theorem State.setFlags_run (s : State) (f : Flags) : (s.setFlags f).run = s.run := rfl
@[simp] theorem State.setFlags_mem (s : State) (f : Flags) : (s.setFlags f).mem = s.mem := rfl
@[simp] theorem State.setFlags_out (s : State) (f : Flags) : (s.setFlags f).out = s.out := rfl
@[simp] theorem State.setFlags_config (s : State) (f : Flags) : (s.setFlags f).config = s.config := rfl
@[simp] theorem State.setFlags_reg (s : State) (f : Flags) (q : Reg) : (s.setFlags f).reg q = s.reg q := rfl
@[simp] theorem State.setFlags_memRead (s : State) (f : Flags) (b : Addr) : (s.setFlags f).memRead b = s.memRead b := rfl
@[simp] theorem State.setFlags_after (s : State) (f : Flags) (n : Nat) : (s.setFlags f).after n = s.after n := rfl

/-! ### `State.output` -/

@[simp] theorem State.output_regs (s : State) (v : Byte) : (s.output v).regs = s.regs := rfl
@[simp] theorem State.output_pc (s : State) (v : Byte) : (s.output v).pc = s.pc := rfl
@[simp] theorem State.output_flags (s : State) (v : Byte) : (s.output v).flags = s.flags := rfl
@[simp] theorem State.output_run (s : State) (v : Byte) : (s.output v).run = s.run := rfl
@[simp] theorem State.output_mem (s : State) (v : Byte) : (s.output v).mem = s.mem := rfl
@[simp] theorem State.output_out (s : State) (v : Byte) : (s.output v).out = s.out ++ [v] := rfl
@[simp] theorem State.output_config (s : State) (v : Byte) : (s.output v).config = s.config := rfl
@[simp] theorem State.output_reg (s : State) (v : Byte) (q : Reg) : (s.output v).reg q = s.reg q := rfl
@[simp] theorem State.output_memRead (s : State) (v : Byte) (b : Addr) : (s.output v).memRead b = s.memRead b := rfl
@[simp] theorem State.output_after (s : State) (v : Byte) (n : Nat) : (s.output v).after n = s.after n := rfl

/-! ### `State.halt` -/

@[simp] theorem State.halt_regs (s : State) : s.halt.regs = s.regs := rfl
@[simp] theorem State.halt_pc (s : State) : s.halt.pc = s.pc := rfl
@[simp] theorem State.halt_flags (s : State) : s.halt.flags = s.flags := rfl
@[simp] theorem State.halt_run (s : State) : s.halt.run = .halted := rfl
@[simp] theorem State.halt_mem (s : State) : s.halt.mem = s.mem := rfl
@[simp] theorem State.halt_out (s : State) : s.halt.out = s.out := rfl
@[simp] theorem State.halt_config (s : State) : s.halt.config = s.config := rfl
@[simp] theorem State.halt_reg (s : State) (q : Reg) : s.halt.reg q = s.reg q := rfl
@[simp] theorem State.halt_memRead (s : State) (b : Addr) : s.halt.memRead b = s.memRead b := rfl
@[simp] theorem State.halt_after (s : State) (n : Nat) : s.halt.after n = s.after n := rfl

/-! ### `State.raise` -/

@[simp] theorem State.raise_regs (s : State) (c : FaultCause) : (s.raise c).regs = s.regs := rfl
@[simp] theorem State.raise_pc (s : State) (c : FaultCause) : (s.raise c).pc = s.pc := rfl
@[simp] theorem State.raise_flags (s : State) (c : FaultCause) : (s.raise c).flags = s.flags := rfl
@[simp] theorem State.raise_run (s : State) (c : FaultCause) : (s.raise c).run = .faulted c := rfl
@[simp] theorem State.raise_mem (s : State) (c : FaultCause) : (s.raise c).mem = s.mem := rfl
@[simp] theorem State.raise_out (s : State) (c : FaultCause) : (s.raise c).out = s.out := rfl
@[simp] theorem State.raise_config (s : State) (c : FaultCause) : (s.raise c).config = s.config := rfl
@[simp] theorem State.raise_reg (s : State) (c : FaultCause) (q : Reg) : (s.raise c).reg q = s.reg q := rfl
@[simp] theorem State.raise_memRead (s : State) (c : FaultCause) (b : Addr) : (s.raise c).memRead b = s.memRead b := rfl
@[simp] theorem State.raise_after (s : State) (c : FaultCause) (n : Nat) : (s.raise c).after n = s.after n := rfl

/-! ### The derived operations, as primitives -/

@[simp] theorem State.sp_eq (s : State) : s.sp = s.reg spIndex := rfl
@[simp] theorem State.setSp_eq (s : State) (v : Byte) : s.setSp v = s.setReg spIndex v := rfl
@[simp] theorem State.advance_eq (s : State) (n : Nat) : s.advance n = s.setPc (s.after n) := rfl
@[simp] theorem State.operand_eq (s : State) (a : Reg) : s.operand a = s.reg a := rfl
@[simp] theorem immediate_eq (v : Byte) : immediate v = v := rfl
@[simp] theorem State.preDecrement_eq (s : State) : s.preDecrement = s.setReg spIndex (s.reg spIndex - 1#8) := rfl
@[simp] theorem State.postIncrement_eq (s : State) : s.postIncrement = s.setReg spIndex (s.reg spIndex + 1#8) := rfl
@[simp] theorem State.top_eq (s : State) : s.top = s.memRead (s.reg spIndex) := rfl
@[simp] theorem State.setTop_eq (s : State) (v : Byte) : s.setTop v = s.memWrite (s.reg spIndex) v := rfl
@[simp] theorem State.isEqual_eq (s : State) : s.isEqual = s.flags.equal := rfl
@[simp] theorem State.isNotEqual_eq (s : State) : s.isNotEqual = !s.flags.equal := rfl

/-! ### The register file -/

/-- Reading a register after a register write (R8, R13). -/
@[simp] theorem State.setReg_reg (s : State) (r q : Reg) (v : Byte) :
    (s.setReg r v).reg q = if q = r then v else s.reg q := by
  simp only [State.reg, State.setReg, Vector.get_eq_getElem, Vector.getElem_set, Fin.ext_iff]
  simp only [eq_comm]

/-- A register file is determined by its eight values. -/
theorem State.regs_ext {s t : State} (h : ∀ r, s.reg r = t.reg r) : s.regs = t.regs := by
  exact Vector.ext fun i hi => h ⟨i, hi⟩

/-! ### Addresses counted from `pc` -/

/-- `(pc + n) mod 256` (R33). -/
theorem State.after_toNat (s : State) (n : Nat) : (s.after n).toNat = (s.pc.toNat + n) % 256 := by
  simp [State.after]

@[simp] theorem State.after_zero (s : State) : s.after 0 = s.pc := by
  simp [State.after]

/-- Reducing to a byte is reducing modulo 256 (R90). -/
@[simp] theorem wrapByte_toNat (n : Nat) : (wrapByte n).toNat = n % 256 := by
  simp [wrapByte]

end Sys2Proof.Machine
end

