-- ==== Sys2Proof/Laws/Memory.lean ====
section
/-! SUPPORT. The laws of memory: read after write, and every memory operation keeps the canonical form. -/

namespace Sys2Proof.Machine

theorem Memory.at_nil (j : Nat) : Memory.at [] j = imageFill := rfl

theorem Memory.at_cons (c : Host.Cell) (m : Memory) (j : Nat) :
    Memory.at (c :: m) j = if c.1 = j then c.2 else Memory.at m j := rfl

/-- Removing one address leaves the fill byte there and every other address alone. -/
theorem Memory.at_filter (m : Memory) (k j : Nat) :
    Memory.at (List.filter (fun c : Host.Cell => c.1 ≠ k) m) j = if j = k then imageFill else Memory.at m j := by
  induction m with
  | nil => simp [Memory.at_nil]
  | cons c m ih =>
    by_cases hc : c.1 = k
    · rw [List.filter_cons_of_neg (by simpa using hc), ih, Memory.at_cons]
      by_cases hj : j = k
      · simp [hj]
      · have hkj : k ≠ j := Ne.symm hj
        simp [hj, hc, hkj]
    · rw [List.filter_cons_of_pos (by simpa using hc), Memory.at_cons, ih, Memory.at_cons]
      by_cases hj : j = k <;> simp [hj, hc]

/-- Inserting an address that is not listed puts its byte there and leaves every other address alone. -/
theorem Memory.at_insert (m : Memory) (k j : Nat) (v : Byte) (h : ∀ c ∈ m, c.1 ≠ k) :
    Memory.at (Memory.insert m k v) j = if j = k then v else Memory.at m j := by
  induction m with
  | nil => simp [Memory.insert, Memory.at, eq_comm]
  | cons c m ih =>
    have hc : c.1 ≠ k := h c (by simp)
    have ih := ih fun d hd => h d (by simp [hd])
    rw [Memory.insert]
    split
    · simp only [Memory.at_cons, eq_comm]
    · rw [Memory.at_cons, ih, Memory.at_cons]
      by_cases hj : j = k <;> simp [hj, hc]

theorem Memory.mem_filter_ne {m : Memory} {k : Nat} {c : Host.Cell}
    (h : c ∈ List.filter (fun c : Host.Cell => c.1 ≠ k) m) : c.1 ≠ k := by
  simpa using (List.mem_filter.1 h).2

theorem Memory.at_write (m : Memory) (a : Addr) (v : Byte) (j : Nat) :
    Memory.at (Memory.write m a v) j = if j = a.toNat then v else Memory.at m j := by
  unfold Memory.write
  split
  · rename_i hv
    rw [Memory.at_filter, hv]
  · rw [Memory.at_insert _ _ _ _ fun c hc => Memory.mem_filter_ne hc, Memory.at_filter]
    by_cases hj : j = a.toNat <;> simp [hj]

/-- Reading after a write: the byte written at its own cell, the old byte at every other (R31, R32). -/
theorem Memory.read_write (m : Memory) (a b : Addr) (v : Byte) :
    Memory.read (Memory.write m a v) b = if b = a then v else Memory.read m b := by
  simp only [Memory.read, Memory.at_write, BitVec.toNat_inj]

/-- `MemRead` after `MemWrite` (R31, R32). -/
@[simp] theorem State.memWrite_memRead (s : State) (a b : Addr) (v : Byte) :
    (s.memWrite a v).memRead b = if b = a then v else s.memRead b :=
  Memory.read_write s.mem a b v

/-! ### The canonical form -/

theorem Memory.wf_nil : Memory.wf [] := by simp [Memory.wf]

theorem Memory.wf_filter {m : Memory} (h : m.wf) (p : Host.Cell → Bool) : Memory.wf (List.filter p m) :=
  ⟨h.1.filter p, fun c hc => h.2 c (List.mem_filter.1 hc).1⟩

theorem Memory.mem_insert {m : Memory} {k : Nat} {v : Byte} {c : Host.Cell} (h : c ∈ Memory.insert m k v) :
    c = (k, v) ∨ c ∈ m := by
  induction m with
  | nil => simpa [Memory.insert] using h
  | cons d m ih =>
    rw [Memory.insert] at h
    split at h
    · simpa using h
    · rcases List.mem_cons.1 h with rfl | h
      · simp
      · rcases ih h with h | h <;> simp [h]

theorem Memory.wf_insert {m : Memory} {k : Nat} {v : Byte} (h : m.wf) (hk : k < memSize) (hv : v ≠ imageFill)
    (hn : ∀ c ∈ m, c.1 ≠ k) : Memory.wf (Memory.insert m k v) := by
  refine ⟨?_, fun c hc => ?_⟩
  · obtain ⟨hs, hm⟩ := h
    clear hm
    induction m with
    | nil => simp [Memory.insert]
    | cons c m ih =>
      have hc : c.1 ≠ k := hn c (by simp)
      obtain ⟨hlt, hs⟩ := List.pairwise_cons.1 hs
      rw [Memory.insert]
      split
      · rename_i hkc
        refine List.pairwise_cons.2 ⟨fun d hd => ?_, List.pairwise_cons.2 ⟨hlt, hs⟩⟩
        rcases List.mem_cons.1 hd with rfl | hd
        · exact hkc
        · exact lt_trans hkc (hlt d hd)
      · refine List.pairwise_cons.2 ⟨fun d hd => ?_, ih (fun d hd => hn d (by simp [hd])) hs⟩
        rcases Memory.mem_insert hd with rfl | hd
        · simp only
          omega
        · exact hlt d hd
  · rcases Memory.mem_insert hc with rfl | hc
    · exact ⟨hk, hv⟩
    · exact h.2 c hc

/-- `MemWrite` keeps the canonical form. -/
theorem Memory.wf_write {m : Memory} (h : m.wf) (a : Addr) (v : Byte) : Memory.wf (Memory.write m a v) := by
  unfold Memory.write
  split
  · exact Memory.wf_filter h _
  · rename_i hv
    exact Memory.wf_insert (Memory.wf_filter h _) a.isLt hv fun c hc => Memory.mem_filter_ne hc

theorem Memory.mem_ofBytes {k : Nat} {bytes : List Byte} {c : Host.Cell} (h : c ∈ Memory.ofBytes k bytes) :
    k ≤ c.1 ∧ c.1 < k + bytes.length ∧ c.2 ≠ imageFill := by
  induction bytes generalizing k with
  | nil => simp [Memory.ofBytes] at h
  | cons b bytes ih =>
    rw [Memory.ofBytes] at h
    have tail : c ∈ Memory.ofBytes (k + 1) bytes → k ≤ c.1 ∧ c.1 < k + (b :: bytes).length ∧ c.2 ≠ imageFill := by
      intro hc
      obtain ⟨h1, h2, h3⟩ := ih hc
      rw [List.length_cons]
      exact ⟨by omega, by omega, h3⟩
    split at h
    · exact tail h
    · rcases List.mem_cons.1 h with rfl | h
      · exact ⟨le_refl k, by simp, by assumption⟩
      · exact tail h

/-- A loaded image is in the canonical form. -/
theorem Memory.wf_ofBytes {k : Nat} {bytes : List Byte} (h : k + bytes.length ≤ memSize) :
    Memory.wf (Memory.ofBytes k bytes) := by
  refine ⟨?_, fun c hc => ?_⟩
  · clear h
    induction bytes generalizing k with
    | nil => simp [Memory.ofBytes]
    | cons b bytes ih =>
      rw [Memory.ofBytes]
      split
      · exact ih
      · refine List.pairwise_cons.2 ⟨fun d hd => ?_, ih⟩
        have := (Memory.mem_ofBytes hd).1
        simp only
        omega
  · obtain ⟨_, h2, h3⟩ := Memory.mem_ofBytes hc
    exact ⟨by omega, h3⟩

theorem Memory.wf_image {program : List Byte} {m : Memory} (h : Memory.image program = some m) : m.wf := by
  unfold Memory.image at h
  split at h
  · rename_i hl
    cases h
    exact Memory.wf_ofBytes (by simpa using hl)
  · cases h

/-- Reset memory is in the canonical form. -/
theorem State.reset_mem_wf : State.reset.mem.wf := Memory.wf_nil

end Sys2Proof.Machine
end

