-- ==== Sys2Proof/Laws/PerInstr.lean ====
section
/-! SUPPORT. The per-instruction family `EncodedForm`: the encoding of an instruction has the length of its row, starts
with the opcode byte of its row, and its operand bytes pass the operand check (R50, R51, R53, R55). -/

namespace Sys2Proof.Laws.EncodedForm

/-- The encoding of `i`, under any opcode map, has its row's length and opcode byte and is well formed. -/
def Statement (i : Instr) : Prop :=
  ∀ o : OpcodeMap,
    (encode o i).length = i.length ∧
      (encode o i).head? = some (o.byte i.mnemonic) ∧
      (RawInstr.mk i.mnemonic ((encode o i).getD 1 0) ((encode o i).getD 2 0)).wf = true

theorem isRegByte_regByte (a : Reg) : isRegByte (regByte a) = true := by
  have := a.isLt
  simp only [isRegByte, regByte_toNat, decide_eq_true_eq]
  omega

theorem ldi (a : Reg) (imm : Byte) : Statement (.ldi a imm) := fun _ => ⟨rfl, rfl, isRegByte_regByte a⟩
theorem prn (a : Reg) : Statement (.prn a) := fun _ => ⟨rfl, rfl, isRegByte_regByte a⟩
theorem hlt : Statement .hlt := fun _ => ⟨rfl, rfl, rfl⟩
theorem mul (a b : Reg) : Statement (.mul a b) := fun _ =>
  ⟨rfl, rfl, Bool.and_eq_true_iff.2 ⟨isRegByte_regByte a, isRegByte_regByte b⟩⟩
theorem add (a b : Reg) : Statement (.add a b) := fun _ =>
  ⟨rfl, rfl, Bool.and_eq_true_iff.2 ⟨isRegByte_regByte a, isRegByte_regByte b⟩⟩
theorem cmp (a b : Reg) : Statement (.cmp a b) := fun _ =>
  ⟨rfl, rfl, Bool.and_eq_true_iff.2 ⟨isRegByte_regByte a, isRegByte_regByte b⟩⟩
theorem push (a : Reg) : Statement (.push a) := fun _ => ⟨rfl, rfl, isRegByte_regByte a⟩
theorem pop (a : Reg) : Statement (.pop a) := fun _ => ⟨rfl, rfl, isRegByte_regByte a⟩
theorem call (a : Reg) : Statement (.call a) := fun _ => ⟨rfl, rfl, isRegByte_regByte a⟩
theorem ret : Statement .ret := fun _ => ⟨rfl, rfl, rfl⟩
theorem jmp (a : Reg) : Statement (.jmp a) := fun _ => ⟨rfl, rfl, isRegByte_regByte a⟩
theorem jeq (a : Reg) : Statement (.jeq a) := fun _ => ⟨rfl, rfl, isRegByte_regByte a⟩
theorem jne (a : Reg) : Statement (.jne a) := fun _ => ⟨rfl, rfl, isRegByte_regByte a⟩

end Sys2Proof.Laws.EncodedForm
end

