-- ==== Sys2Proof/Laws/Step.lean ====
section
/-! SUPPORT. Each meaning in primitive updates, and what a step can do, said once. -/

namespace Sys2Proof.Machine

/-! ### The meanings, as chains of primitive updates -/

theorem exec_ldi (a : Reg) (imm : Byte) (s : State) :
    exec (.ldi a imm) s = .next ((s.setReg a imm).setPc (s.after 3)) := rfl

theorem exec_prn (a : Reg) (s : State) :
    exec (.prn a) s = .next ((s.output (s.reg a)).setPc (s.after 2)) := rfl

theorem exec_hlt (s : State) : exec .hlt s = .next s.halt := rfl

theorem exec_mul (a b : Reg) (s : State) :
    exec (.mul a b) s = .next ((s.setReg a (wrapByte ((s.reg a).toNat * (s.reg b).toNat))).setPc (s.after 3)) := rfl

theorem exec_add (a b : Reg) (s : State) :
    exec (.add a b) s = .next ((s.setReg a (wrapByte ((s.reg a).toNat + (s.reg b).toNat))).setPc (s.after 3)) := rfl

theorem exec_cmp (a b : Reg) (s : State) :
    exec (.cmp a b) s = .next ((s.setFlags (compareFlags (s.reg a) (s.reg b))).setPc (s.after 3)) := rfl

theorem exec_push (a : Reg) (s : State) :
    exec (.push a) s =
      .next (((s.setReg spIndex (s.reg spIndex - 1#8)).memWrite (s.reg spIndex - 1#8)
        (if a = spIndex then s.reg spIndex - 1#8 else s.reg a)).setPc (s.after 2)) := by
  simp [exec, execPush]

theorem exec_pop (a : Reg) (s : State) :
    exec (.pop a) s =
      .next (((s.setReg a (s.memRead (s.reg spIndex))).setReg spIndex
        ((if spIndex = a then s.memRead (s.reg spIndex) else s.reg spIndex) + 1#8)).setPc (s.after 2)) := by
  simp [exec, execPop]

theorem exec_call (a : Reg) (s : State) :
    exec (.call a) s =
      .next (((s.setReg spIndex (s.reg spIndex - 1#8)).memWrite (s.reg spIndex - 1#8) (s.after 2)).setPc
        (if a = spIndex then s.reg spIndex - 1#8 else s.reg a)) := by
  simp [exec, execCall]

theorem exec_ret_literal {s : State} (h : s.config.retPolicy = .literal) :
    exec .ret s =
      .next ((s.memWrite (s.reg spIndex) (s.reg spIndex + 1#8)).setPc (s.memRead (s.reg spIndex))) := by
  simp [exec, execRet, h, retLiteral]

theorem exec_ret_corrected {s : State} (h : s.config.retPolicy = .corrected) :
    exec .ret s =
      .next ((s.setReg spIndex (s.reg spIndex + 1#8)).setPc (s.memRead (s.reg spIndex))) := by
  simp [exec, execRet, h, retCorrected]

theorem exec_jmp (a : Reg) (s : State) : exec (.jmp a) s = .next (s.setPc (s.reg a)) := rfl

theorem jumpIf_eq (b : Bool) (a : Reg) (s : State) :
    jumpIf b a s = s.setPc (if b then s.reg a else s.after 2) := by
  cases b <;> rfl

theorem exec_jeq (a : Reg) (s : State) :
    exec (.jeq a) s = .next (s.setPc (if s.flags.equal then s.reg a else s.after 2)) := by
  simp [exec, execJeq, jumpIf_eq]

theorem exec_jne (a : Reg) (s : State) :
    exec (.jne a) s = .next (s.setPc (if s.flags.equal then s.after 2 else s.reg a)) := by
  cases h : s.flags.equal <;> simp [exec, execJne, jumpIf_eq, h]

/-! ### One step -/

theorem State.decodeNext_eq (s : State) :
    s.decodeNext = decode s.config.opcodes (s.memRead s.pc) (s.memRead (s.after 1)) (s.memRead (s.after 2)) := by
  simp [State.decodeNext, State.fetch]

theorem step_running_ok {s : State} {i : Instr} (hr : s.run = .running) (hd : s.decodeNext = .ok i) :
    step s = exec i s := by
  simp [step, hr, hd]

theorem step_running_error {s : State} {c : FaultCause} (hr : s.run = .running) (hd : s.decodeNext = .error c) :
    step s = .next (s.raise c) := by
  simp [step, hr, hd]

theorem step_halted {s : State} (hr : s.run = .halted) : step s = .fault .coreHalted := by
  simp [step, hr]

theorem step_faulted {s : State} {c : FaultCause} (hr : s.run = .faulted c) : step s = .fault (.coreFaulted c) := by
  simp [step, hr]

/-- Everything a step that answers a next state can do: the core runs, and either the decoded instruction is executed or
the decoder's fault is taken (R70 to R75). -/
theorem step_cases {s t : State} (h : step s = .next t) :
    s.run = .running ∧
      ((∃ i, s.decodeNext = .ok i ∧ exec i s = .next t) ∨ (∃ c, s.decodeNext = .error c ∧ t = s.raise c)) := by
  cases hr : s.run with
  | halted => simp [step, hr] at h
  | faulted c => simp [step, hr] at h
  | running =>
    refine ⟨rfl, ?_⟩
    cases hd : s.decodeNext with
    | ok i => exact .inl ⟨i, rfl, by simpa [step, hr, hd] using h⟩
    | error c => exact .inr ⟨c, rfl, by simpa [step, hr, hd] using h.symm⟩

/-- The fault a step takes is one of the two faults of decode (R130). -/
theorem decodeNext_error {s : State} {c : FaultCause} (h : s.decodeNext = .error c) :
    (∃ ir, c = .illegalOpcode ir) ∨ ∃ v, c = .illegalRegister v := by
  rcases decode_error h with ⟨rfl, _⟩ | ⟨v, _, rfl, _⟩
  · exact .inl ⟨_, rfl⟩
  · exact .inr ⟨v, rfl⟩

/-- Exactly one flag is set by a comparison (R93). -/
theorem compareFlags_exactlyOne (x y : Byte) : (compareFlags x y).exactlyOne := by
  simp only [compareFlags, Flags.exactlyOne, Flags.atMostOne, decide_eq_true_eq]
  omega

end Sys2Proof.Machine
end

