-- ==== Sys2Proof/Machine/Assembly.lean ====
section
/-! DEFINITION. Assembler text of an instruction (R59; decision D22). No semantic rule uses it. -/

namespace Sys2Proof.Machine

/-- The mnemonic as the opcode map writes it (R55). -/
def mnemonicText : Mnemonic → String
  | .ldi => "LDI"
  | .prn => "PRN"
  | .hlt => "HLT"
  | .mul => "MUL"
  | .add => "ADD"
  | .cmp => "CMP"
  | .push => "PUSH"
  | .pop => "POP"
  | .call => "CALL"
  | .ret => "RET"
  | .jmp => "JMP"
  | .jeq => "JEQ"
  | .jne => "JNE"

/-- Assembler name of a register, `R0` to `R7` (R9, R59). -/
def regText (a : Reg) : String := "R" ++ toString a.val

/-- The operands of an instruction as the source's programs write them: operand A first, immediates in decimal (R59). -/
def operandText : Instr → String
  | .ldi a imm => " " ++ regText a ++ "," ++ toString imm.toNat
  | .prn a => " " ++ regText a
  | .hlt => ""
  | .mul a b => " " ++ regText a ++ "," ++ regText b
  | .add a b => " " ++ regText a ++ "," ++ regText b
  | .cmp a b => " " ++ regText a ++ "," ++ regText b
  | .push a => " " ++ regText a
  | .pop a => " " ++ regText a
  | .call a => " " ++ regText a
  | .ret => ""
  | .jmp a => " " ++ regText a
  | .jeq a => " " ++ regText a
  | .jne a => " " ++ regText a

/-- One instruction in assembler syntax: `MNEMONIC operand,operand` (R59). -/
def assemblyText (i : Instr) : String := mnemonicText i.mnemonic ++ operandText i

end Sys2Proof.Machine
end

