-- ==== Sys2Proof/Tests/Slice0.lean ====
section
/-! SUPPORT. Tests: the well-formedness checks refuse ill-formed terms, words written out from the encodings decode, single
steps on the spec's own vectors (spec/95_test_vectors.md, V<n>), and a witness for the hypotheses of every statement. -/

namespace Sys2Proof.Tests

open Sys2Proof.Machine Sys2Proof.Claims

/-! ### Helpers -/

/-- The reset state with `pc`, some registers and some memory cells set. -/
def stateWith (pc : Addr) (regs : List (Reg × Byte)) (cells : List (Addr × Byte)) : State :=
  let s := cells.foldl (fun s c => s.memWrite c.1 c.2) (State.reset.setPc pc)
  regs.foldl (fun s r => s.setReg r.1 r.2) s

/-- The step answers a next state of which `p` holds. -/
def stepsTo (s : State) (p : State → Bool) : Bool :=
  match step s with
  | .next t => p t
  | _ => false

/-- The reset state with three bytes at address 0: the opcode byte of `m` and its operands. -/
def code (m : Mnemonic) (opa opb : Byte) : State :=
  State.reset.placeAtPc (defaultOpcodes.byte m) opa opb

/-- The same state under the other RET policy. -/
def corrected (s : State) : State := { s with config := { s.config with retPolicy := .corrected } }

theorem code_atInstr (m : Mnemonic) (opa opb : Byte) : AtInstr (code m opa opb) m opa opb := by
  refine ⟨rfl, (by decide : defaultOpcodes.wf), ?_, ?_, ?_⟩
  · rw [code, State.placeAtPc, State.memWrite_memRead, State.memWrite_memRead, State.memWrite_memRead]; rfl
  · rw [code, State.placeAtPc, State.memWrite_memRead, State.memWrite_memRead]; rfl
  · rw [code, State.placeAtPc, State.memWrite_memRead]; rfl

/-! ### The checks of WellFormed refuse (R53, R5) -/

theorem test_wf_refuses_bad_a_RI : (RawInstr.mk .ldi 8#8 0#8).wf = false := by decide
theorem test_wf_refuses_bad_a_R : (RawInstr.mk .prn 255#8 0#8).wf = false := by decide
theorem test_wf_refuses_bad_a_RR : (RawInstr.mk .mul 16#8 7#8).wf = false := by decide
theorem test_wf_refuses_bad_b_RR : (RawInstr.mk .cmp 7#8 8#8).wf = false := by decide
theorem test_wf_ignores_unused_bytes : (RawInstr.mk .hlt 255#8 255#8).wf = true := by decide
theorem test_wf_refuses_equal_opcodes : ¬ OpcodeMap.wf { defaultOpcodes with jne := 0x55#8 } := by decide
theorem test_memory_wf_refuses_fill_entry : ¬ Memory.wf [(3, 0#8)] := by decide
theorem test_memory_wf_refuses_unsorted : ¬ Memory.wf [(3, 1#8), (2, 1#8)] := by decide
theorem test_memory_wf_refuses_address_256 : ¬ Memory.wf [(256, 1#8)] := by decide

/-! ### Decoding: words written out from the encodings of the rules -/

theorem test_decode_ldi : decode defaultOpcodes 0b10000010#8 0b00000011#8 0b11001000#8 = .ok (.ldi 3 200#8) := rfl
theorem test_decode_prn : decode defaultOpcodes 0b01000111#8 0b00000010#8 0b10000000#8 = .ok (.prn 2) := rfl
theorem test_decode_hlt : decode defaultOpcodes 0b00000001#8 0b10101010#8 0b01010101#8 = .ok .hlt := rfl
theorem test_decode_mul : decode defaultOpcodes 0b10100010#8 0b00000001#8 0b00000110#8 = .ok (.mul 1 6) := rfl
theorem test_decode_add : decode defaultOpcodes 0b10100000#8 0b00000111#8 0b00000000#8 = .ok (.add 7 0) := rfl
theorem test_decode_cmp : decode defaultOpcodes 0b10100111#8 0b00000100#8 0b00000010#8 = .ok (.cmp 4 2) := rfl
theorem test_decode_push : decode defaultOpcodes 0b01000101#8 0b00000111#8 0b11111111#8 = .ok (.push 7) := rfl
theorem test_decode_pop : decode defaultOpcodes 0b01000110#8 0b00000001#8 0b11111111#8 = .ok (.pop 1) := rfl
theorem test_decode_call : decode defaultOpcodes 0b01010000#8 0b00000110#8 0b11111111#8 = .ok (.call 6) := rfl
theorem test_decode_ret : decode defaultOpcodes 0b00010001#8 0b00001000#8 0b00001000#8 = .ok .ret := rfl
theorem test_decode_jmp : decode defaultOpcodes 0b01010100#8 0b00000101#8 0b11111111#8 = .ok (.jmp 5) := rfl
theorem test_decode_jeq : decode defaultOpcodes 0b01010101#8 0b00000011#8 0b11111111#8 = .ok (.jeq 3) := rfl
theorem test_decode_jne : decode defaultOpcodes 0b01010110#8 0b00000100#8 0b11111111#8 = .ok (.jne 4) := rfl
/-- V62: LS-8's bit fields are not decoded (R52). -/
theorem test_decode_illegal : decode defaultOpcodes 0xA1#8 0#8 1#8 = .error (.illegalOpcode 0xA1#8) := rfl
/-- V18: operand A is reported first (R133). -/
theorem test_decode_bad_a_first : decode defaultOpcodes 0xA2#8 16#8 32#8 = .error (.illegalRegister 16#8) := rfl
/-- V32. -/
theorem test_decode_bad_b : decode defaultOpcodes 0xA7#8 0#8 8#8 = .error (.illegalRegister 8#8) := rfl
theorem test_tableWord_ldi : decodeTableWord 24 0x080082 = some (.ldi 0 8#8) := by decide
theorem test_tableWord_short : decodeTableWord 8 0xA0 = some (.add 0 0) := by decide
theorem test_tableWord_illegal : decodeTableWord 8 0x00 = none := by decide
/-- R59: `LDI R0,8` is bytes 82 00 08 (P1). -/
theorem test_assembly : assemblyText (.ldi 0 8#8) = "LDI R0,8" := by decide

/-! ### Single steps, from the vectors of spec/95_test_vectors.md -/

/-- V2. -/
theorem test_ldi_sp : stepsTo (stateWith 0 [] [(0, 0x82), (1, 7), (2, 0x80)]) (fun t =>
    t.reg 7 = 128#8 ∧ t.pc = 3#8) = true := by decide
/-- V5. -/
theorem test_ldi_wraps : stepsTo (stateWith 255 [] [(255, 0x82), (0, 3), (1, 0x66)]) (fun t =>
    t.reg 3 = 102#8 ∧ t.pc = 2#8) = true := by decide
/-- V7. -/
theorem test_prn : stepsTo (stateWith 9 [(0, 72)] [(9, 0x47), (10, 0)]) (fun t =>
    t.out = [72#8] ∧ t.pc = 11#8) = true := by decide
/-- V8. -/
theorem test_prn_sp_wraps : stepsTo (stateWith 255 [] [(255, 0x47), (0, 7)]) (fun t =>
    t.out = [255#8] ∧ t.pc = 1#8) = true := by decide
/-- V11. -/
theorem test_hlt : stepsTo (stateWith 5 [] [(5, 1), (6, 0xFF), (7, 0xFF)]) (fun t =>
    t.run = .halted ∧ t.pc = 5#8 ∧ t.status = some 0) = true := by decide
/-- V14. -/
theorem test_mul_wraps : stepsTo (stateWith 0 [(0, 255), (1, 255)] [(0, 0xA2), (1, 0), (2, 1)]) (fun t =>
    t.reg 0 = 1#8 ∧ t.reg 1 = 255#8) = true := by decide
/-- V17. -/
theorem test_mul_squares : stepsTo (stateWith 0 [(3, 12)] [(0, 0xA2), (1, 3), (2, 3)]) (fun t =>
    t.reg 3 = 144#8 ∧ t.pc = 3#8) = true := by decide
/-- V19. -/
theorem test_add_wraps : stepsTo (stateWith 0 [(0, 200), (1, 100)] [(0, 0xA0), (1, 0), (2, 1)]) (fun t =>
    t.reg 0 = 44#8 ∧ t.reg 1 = 100#8 ∧ t.pc = 3#8) = true := by decide
/-- V24. -/
theorem test_add_sp : stepsTo (stateWith 0 [(1, 255)] [(0, 0xA0), (1, 7), (2, 1)]) (fun t =>
    t.reg 7 = 254#8) = true := by decide
/-- V26: old L is cleared. -/
theorem test_cmp_overwrites : stepsTo ((stateWith 0 [(0, 20), (1, 10)] [(0, 0xA7), (1, 0), (2, 1)]).setFlags ⟨true, false, false⟩)
    (fun t => t.flags = ⟨false, true, false⟩ ∧ t.pc = 3#8) = true := by decide
/-- V29: unsigned, 255 > 1. -/
theorem test_cmp_unsigned : stepsTo (stateWith 0 [(0, 255), (1, 1)] [(0, 0xA7), (1, 0), (2, 1)])
    (fun t => t.flags = ⟨false, true, false⟩) = true := by decide
/-- V35. -/
theorem test_push_sp : stepsTo (stateWith 0 [] [(0, 0x45), (1, 7)]) (fun t =>
    t.reg 7 = 254#8 ∧ t.memRead 254 = 254#8 ∧ t.pc = 2#8) = true := by decide
/-- V36: the PUSH overwrites its own operand byte. -/
theorem test_push_over_itself : stepsTo (stateWith 4 [(0, 0xEE), (7, 6)] [(4, 0x45), (5, 0)]) (fun t =>
    t.reg 7 = 5#8 ∧ t.memRead 5 = 0xEE#8 ∧ t.pc = 6#8) = true := by decide
/-- V38. -/
theorem test_pop_wraps : stepsTo (stateWith 0 [] [(0, 0x46), (1, 1), (255, 0x5A)]) (fun t =>
    t.reg 1 = 90#8 ∧ t.reg 7 = 0#8) = true := by decide
/-- V39. -/
theorem test_pop_sp : stepsTo (stateWith 0 [(7, 200)] [(0, 0x46), (1, 7), (200, 41)]) (fun t =>
    t.reg 7 = 42#8 ∧ t.pc = 2#8) = true := by decide
/-- V43. -/
theorem test_call_wraps : stepsTo (stateWith 254 [(1, 48)] [(254, 0x50), (255, 1)]) (fun t =>
    t.reg 7 = 254#8 ∧ t.memRead 254 = 0#8 ∧ t.pc = 48#8) = true := by decide
/-- V45. -/
theorem test_call_sp : stepsTo (stateWith 16 [] [(16, 0x50), (17, 7)]) (fun t =>
    t.reg 7 = 254#8 ∧ t.memRead 254 = 18#8 ∧ t.pc = 254#8) = true := by decide
/-- V47 lit. -/
theorem test_ret_literal : stepsTo (stateWith 20 [(7, 253)] [(20, 0x11), (253, 10)]) (fun t =>
    t.pc = 10#8 ∧ t.reg 7 = 253#8 ∧ t.memRead 253 = 254#8) = true := by decide
/-- V48 cor. -/
theorem test_ret_corrected : stepsTo (corrected (stateWith 0 [] [(0, 0x11), (255, 0x20)])) (fun t =>
    t.pc = 32#8 ∧ t.reg 7 = 0#8 ∧ t.memRead 255 = 0x20#8) = true := by decide
/-- V49. -/
theorem test_jmp : stepsTo (stateWith 30 [(2, 12)] [(30, 0x54), (31, 2)]) (fun t => t.pc = 12#8) = true := by decide
/-- V51: reset flags, not taken. -/
theorem test_jeq_not_taken : stepsTo (stateWith 0 [(2, 64)] [(0, 0x55), (1, 2)]) (fun t => t.pc = 2#8) = true := by decide
/-- V52. -/
theorem test_jeq_taken : stepsTo ((stateWith 0 [(2, 64)] [(0, 0x55), (1, 2)]).setFlags ⟨false, false, true⟩)
    (fun t => t.pc = 64#8 ∧ t.flags = ⟨false, false, true⟩) = true := by decide
/-- V54: reset flags, taken. -/
theorem test_jne_taken : stepsTo (stateWith 0 [(2, 64)] [(0, 0x56), (1, 2)]) (fun t => t.pc = 64#8) = true := by decide
/-- V55. -/
theorem test_jne_not_taken : stepsTo ((stateWith 0 [(2, 64)] [(0, 0x56), (1, 2)]).setFlags ⟨false, false, true⟩)
    (fun t => t.pc = 2#8) = true := by decide
/-- V60: zero-filled memory faults at once. -/
theorem test_reset_faults : stepsTo State.reset (fun t =>
    t = State.reset.raise (.illegalOpcode 0#8) ∧ t.status = some 1) = true := by decide
/-- V58: the operand check is made though the branch would not be taken. -/
theorem test_jeq_bad_register : stepsTo (stateWith 0 [] [(0, 0x55), (1, 9)]) (fun t =>
    t.run = .faulted (.illegalRegister 9#8) ∧ t.pc = 0#8) = true := by decide
/-- The first instruction after reset is the placed word (R151). -/
theorem test_withFetchWord : stepsTo (State.reset.withFetchWord 24 0x080082) (fun t =>
    t.reg 0 = 8#8 ∧ t.pc = 3#8) = true := by decide
/-- R27: the output port pulses with the printed byte. -/
theorem test_outPulse : stepsTo (stateWith 9 [(0, 72)] [(9, 0x47), (10, 0)]) (fun t =>
    outPulse State.reset t = some 72#8) = true := by decide
/-- R27, R130: the fault outputs. -/
theorem test_pins : (State.reset.raise (.illegalRegister 9#8)).pins =
    { halted := false, fault := true, faultCause := some 2#2, faultInfo := some 9#8 } := by decide

/-! ### Witnesses: states and operands that meet the hypotheses of each statement, clause by clause -/

/-- Formats `RI` and `R` (LDI, PRN, PUSH, POP, CALL, JMP, JEQ, JNE): a register at either end of its range, and the first
byte above it. -/
theorem witness_operandA (m : Mnemonic) :
    (AtInstr (code m 0#8 0#8) m 0#8 0#8 ∧ (0#8).toNat = (0 : Reg).val) ∧
    (AtInstr (code m 7#8 255#8) m 7#8 255#8 ∧ (7#8).toNat = (7 : Reg).val) ∧
    (AtInstr (code m 8#8 0#8) m 8#8 0#8 ∧ 7 < (8#8).toNat) :=
  ⟨⟨code_atInstr _ _ _, rfl⟩, ⟨code_atInstr _ _ _, rfl⟩, ⟨code_atInstr _ _ _, by decide⟩⟩

theorem witness_LdiLoadsImmediate : AtInstr (code .ldi 8#8 0#8) .ldi 8#8 0#8 ∧ AtInstr (code .ldi 7#8 255#8) .ldi 7#8 255#8 :=
  ⟨(witness_operandA .ldi).2.2.1, (witness_operandA .ldi).2.1.1⟩
theorem witness_PrnEmitsRegister : AtInstr (code .prn 8#8 0#8) .prn 8#8 0#8 ∧ AtInstr (code .prn 7#8 255#8) .prn 7#8 255#8 :=
  ⟨(witness_operandA .prn).2.2.1, (witness_operandA .prn).2.1.1⟩
theorem witness_PushStoresBelowTheTop :
    AtInstr (code .push 8#8 0#8) .push 8#8 0#8 ∧ AtInstr (code .push 7#8 255#8) .push 7#8 255#8 :=
  ⟨(witness_operandA .push).2.2.1, (witness_operandA .push).2.1.1⟩
theorem witness_PopLoadsTheTop : AtInstr (code .pop 8#8 0#8) .pop 8#8 0#8 ∧ AtInstr (code .pop 7#8 255#8) .pop 7#8 255#8 :=
  ⟨(witness_operandA .pop).2.2.1, (witness_operandA .pop).2.1.1⟩
theorem witness_CallPushesReturnAddressAndJumps :
    AtInstr (code .call 8#8 0#8) .call 8#8 0#8 ∧ AtInstr (code .call 7#8 255#8) .call 7#8 255#8 :=
  ⟨(witness_operandA .call).2.2.1, (witness_operandA .call).2.1.1⟩
theorem witness_JmpSetsPcFromRegister :
    AtInstr (code .jmp 8#8 0#8) .jmp 8#8 0#8 ∧ AtInstr (code .jmp 7#8 255#8) .jmp 7#8 255#8 :=
  ⟨(witness_operandA .jmp).2.2.1, (witness_operandA .jmp).2.1.1⟩
theorem witness_JeqBranchesOnEqual :
    (AtInstr (code .jeq 8#8 0#8) .jeq 8#8 0#8 ∧ AtInstr (code .jeq 7#8 255#8) .jeq 7#8 255#8) ∧
    (State.reset.setFlags ⟨false, false, true⟩).flags.equal = true ∧ State.reset.flags.equal = false :=
  ⟨⟨(witness_operandA .jeq).2.2.1, (witness_operandA .jeq).2.1.1⟩, by decide⟩
theorem witness_JneBranchesOnNotEqual :
    (AtInstr (code .jne 8#8 0#8) .jne 8#8 0#8 ∧ AtInstr (code .jne 7#8 255#8) .jne 7#8 255#8) ∧
    (State.reset.setFlags ⟨false, false, true⟩).flags.equal = true ∧ State.reset.flags.equal = false :=
  ⟨⟨(witness_operandA .jne).2.2.1, (witness_operandA .jne).2.1.1⟩, by decide⟩

/-- Format `RR` (MUL, ADD, CMP): both registers good, operand A bad, operand B bad, at the boundaries. -/
theorem witness_operandsAB (m : Mnemonic) :
    (AtInstr (code m 7#8 0#8) m 7#8 0#8 ∧ (7#8).toNat = (7 : Reg).val ∧ (0#8).toNat = (0 : Reg).val) ∧
    (AtInstr (code m 8#8 8#8) m 8#8 8#8 ∧ 7 < (8#8).toNat) ∧
    (AtInstr (code m 7#8 8#8) m 7#8 8#8 ∧ (7#8).toNat ≤ 7 ∧ 7 < (8#8).toNat) :=
  ⟨⟨code_atInstr _ _ _, rfl, rfl⟩, ⟨code_atInstr _ _ _, by decide⟩, ⟨code_atInstr _ _ _, by decide, by decide⟩⟩

theorem witness_MulWritesProductModulo256 :
    AtInstr (code .mul 7#8 0#8) .mul 7#8 0#8 ∧ AtInstr (code .mul 8#8 8#8) .mul 8#8 8#8 ∧ AtInstr (code .mul 7#8 8#8) .mul 7#8 8#8 :=
  ⟨(witness_operandsAB .mul).1.1, (witness_operandsAB .mul).2.1.1, (witness_operandsAB .mul).2.2.1⟩
theorem witness_AddWritesSumModulo256 :
    AtInstr (code .add 7#8 0#8) .add 7#8 0#8 ∧ AtInstr (code .add 8#8 8#8) .add 8#8 8#8 ∧ AtInstr (code .add 7#8 8#8) .add 7#8 8#8 :=
  ⟨(witness_operandsAB .add).1.1, (witness_operandsAB .add).2.1.1, (witness_operandsAB .add).2.2.1⟩
theorem witness_CmpSetsFlagsByUnsignedOrder :
    AtInstr (code .cmp 7#8 0#8) .cmp 7#8 0#8 ∧ AtInstr (code .cmp 8#8 8#8) .cmp 8#8 8#8 ∧ AtInstr (code .cmp 7#8 8#8) .cmp 7#8 8#8 :=
  ⟨(witness_operandsAB .cmp).1.1, (witness_operandsAB .cmp).2.1.1, (witness_operandsAB .cmp).2.2.1⟩

/-- Operand bytes are ignored by format `Z`, and a step to the halted state exists. -/
theorem witness_HltHaltsTheCore :
    AtInstr (code .hlt 255#8 255#8) .hlt 255#8 255#8 ∧
    stepsTo (code .hlt 255#8 255#8) (fun t => t.run = .halted) = true :=
  ⟨code_atInstr _ _ _, by decide⟩

theorem witness_LiteralRetRewritesTheTop :
    AtInstr (code .ret 255#8 255#8) .ret 255#8 255#8 ∧ (code .ret 255#8 255#8).config.retPolicy = .literal :=
  ⟨code_atInstr _ _ _, rfl⟩
theorem witness_CorrectedRetPopsTheTop :
    AtInstr (code .ret 0#8 0#8) .ret 0#8 0#8 ∧ (corrected (code .ret 0#8 0#8)).config.retPolicy = .corrected :=
  ⟨code_atInstr _ _ _, rfl⟩

theorem witness_DecodeOfEncodeIsIdentity : defaultOpcodes.wf := by decide
theorem witness_EncodeOfDecodeIsTheFetchedBytes :
    decode defaultOpcodes 0x82#8 7#8 255#8 = .ok (.ldi 7 255#8) := rfl
theorem witness_DecoderAcceptsExactlyTheTable :
    defaultOpcodes.wf ∧ (∀ m ∈ Mnemonic.all, defaultOpcodes.byte m ≠ 0#8) ∧
    (defaultOpcodes.byte .prn = 0x47#8 ∧ Mnemonic.prn.format ≠ .z ∧ 7 < (8#8).toNat) ∧
    (defaultOpcodes.byte .add = 0xA0#8 ∧ Mnemonic.add.format = .rr ∧ (7#8).toNat ≤ 7 ∧ 7 < (8#8).toNat) := by decide
theorem witness_IllegalOpcodesAreTheOther243 : defaultOpcodes.wf := by decide

theorem witness_StepRunsTheDecodedInstruction :
    (code .push 7#8 0#8).run = .running ∧ Decodes (code .push 7#8 0#8) (.push 7) := ⟨rfl, rfl⟩
theorem witness_StepIsDefinedExactlyWhenRunning :
    State.reset.run = .running ∧ State.reset.halt.run = .halted ∧
    (State.reset.raise (.illegalOpcode 0#8)).run = .faulted (.illegalOpcode 0#8) ∧ State.reset.halt.run ≠ .running := by
  decide
theorem witness_UnknownOpcodeRaisesIllegalOpcode :
    State.reset.run = .running ∧ ∀ m ∈ Mnemonic.all, State.reset.config.opcodes.byte m ≠ State.reset.memRead State.reset.pc := by
  decide
theorem witness_BadRegisterOperandRaisesIllegalRegister :
    (AtInstr (code .jne 8#8 0#8) .jne 8#8 0#8 ∧ Mnemonic.jne.format ≠ .z ∧ 7 < (8#8).toNat) ∧
    (AtInstr (code .cmp 7#8 8#8) .cmp 7#8 8#8 ∧ Mnemonic.cmp.format = .rr ∧ (7#8).toNat ≤ 7 ∧ 7 < (8#8).toNat) ∧
    (AtInstr (code .cmp 7#8 7#8) .cmp 7#8 7#8 ∧ (RawInstr.mk .cmp 7#8 7#8).wf = true) :=
  ⟨⟨code_atInstr _ _ _, by decide⟩, ⟨code_atInstr _ _ _, by decide⟩, ⟨code_atInstr _ _ _, by decide⟩⟩
theorem witness_FaultsArePreciseAndChangeOnlyTheRunState :
    stepsTo State.reset (fun t => t.run = .faulted (.illegalOpcode 0#8)) = true ∧
    stepsTo (code .prn 8#8 0#8) (fun t => t.run = .faulted (.illegalRegister 8#8)) = true := by decide

/-- Steps that change each piece of state: a register, the flags, memory, the output stream, the run state. -/
theorem witness_StepChangesOnlyWhatTheInstructionNames :
    stepsTo (code .ldi 0#8 1#8) (fun t => t.reg 0 ≠ (code .ldi 0#8 1#8).reg 0) = true ∧
    stepsTo (code .cmp 0#8 0#8) (fun t => t.flags ≠ (code .cmp 0#8 0#8).flags) = true ∧
    stepsTo (code .push 7#8 0#8) (fun t => t.mem ≠ (code .push 7#8 0#8).mem) = true ∧
    stepsTo (code .call 7#8 0#8) (fun t => t.mem ≠ (code .call 7#8 0#8).mem) = true ∧
    stepsTo (code .ret 0#8 0#8 |>.setSp 9#8) (fun t => t.mem ≠ (code .ret 0#8 0#8 |>.setSp 9#8).mem) = true ∧
    stepsTo (code .prn 0#8 0#8) (fun t => t.out ≠ (code .prn 0#8 0#8).out) = true ∧
    stepsTo (code .hlt 0#8 0#8) (fun t => t.run ≠ (code .hlt 0#8 0#8).run) = true := by decide
theorem witness_StepLeavesPcAsTabulated :
    (Decodes (code .jmp 7#8 0#8) (.jmp 7) ∧ stepsTo (code .jmp 7#8 0#8) (fun t => t.pc = 255#8) = true) ∧
    (Rejects State.reset (.illegalOpcode 0#8) ∧ stepsTo State.reset (fun t => t.pc = 0#8) = true) :=
  ⟨⟨rfl, by decide⟩, ⟨rfl, by decide⟩⟩

theorem code_inv (m : Mnemonic) (opa opb : Byte) : (code m opa opb).Inv where
  memory := Memory.wf_write (Memory.wf_write (Memory.wf_write Memory.wf_nil _ _) _ _) _ _
  flags := by simp [code, State.placeAtPc, State.reset, Flags.atMostOne]
  opcodes := (by decide : defaultOpcodes.wf)
  cause := by simp [code, State.placeAtPc, State.reset]

theorem witness_StepKeepsTheInvariant :
    (code .push 7#8 0#8).Inv ∧ stepsTo (code .push 7#8 0#8) (fun t => t.pc = 2#8) = true :=
  ⟨code_inv _ _ _, by decide⟩
theorem witness_RunKeepsTheInvariant :
    (code .push 7#8 0#8).Inv ∧ ∃ t, core.run 2 (code .push 7#8 0#8) = .next t :=
  ⟨code_inv _ _ _, _, rfl⟩
theorem witness_ResetHasTheInvariant :
    defaultConfig.opcodes.wf ∧ Memory.wf [(0, 1#8), (255, 2#8)] ∧ (code .hlt 0#8 0#8).Inv :=
  ⟨by decide, by decide, code_inv _ _ _⟩
theorem witness_ExactlyOneFlagAfterAComparison :
    (State.reset.setFlags ⟨false, false, true⟩).flags.exactlyOne ∧
    stepsTo ((code .cmp 0#8 7#8).setFlags ⟨false, false, true⟩) (fun t => t.flags = ⟨true, false, false⟩) = true :=
  ⟨by simp [Flags.exactlyOne, Flags.atMostOne], by decide⟩

theorem witness_FlagsAreWrittenByCmpAndOnlyEqualIsRead :
    (∃ t, exec (.ldi 7 0#8) State.reset = .next t) ∧ (∃ t, exec (.cmp 0 7) State.reset = .next t) ∧
    ((⟨true, false, false⟩ : Flags).equal = State.reset.flags.equal ∧ ∃ t, step State.reset = .next t) :=
  ⟨⟨_, rfl⟩, ⟨_, rfl⟩, rfl, ⟨_, rfl⟩⟩
theorem witness_OutputStreamIsNeverRead : ∃ t, step (code .prn 7#8 0#8) = .next t := ⟨_, rfl⟩
theorem witness_DataAccessesAreThoseTabulated :
    (∃ t, exec .hlt State.reset = .next t) ∧ (∃ t, exec (.push 7) State.reset = .next t) ∧
    (∃ t, exec (.call 0) State.reset = .next t) ∧
    (Memory.read [(0, 1#8)] (State.reset.reg 7) = State.reset.memRead (State.reset.reg 7) ∧
      (∃ t, exec (.pop 7) State.reset = .next t) ∧ ∃ t, exec .ret State.reset = .next t) :=
  ⟨⟨_, rfl⟩, ⟨_, rfl⟩, ⟨_, rfl⟩, by decide, ⟨_, rfl⟩, ⟨_, rfl⟩⟩
theorem witness_ConfigurationIsReadByDecodeAndRetOnly :
    (∃ t, exec .ret State.reset = .next t) ∧ ∃ t, exec (.jmp 0) State.reset = .next t := ⟨⟨_, rfl⟩, ⟨_, rfl⟩⟩

theorem witness_PushThenPopIsBalanced : (0 : Reg) ≠ 7 ∧ (6 : Reg) ≠ 7 := by decide
theorem witness_RetReturnsPastItsCall :
    (∃ t, exec (.call 7) State.reset = .next t ∧ t.reg 7 = t.reg 7 ∧ t.memRead (t.reg 7) = t.memRead (t.reg 7) ∧
      t.config.retPolicy = .literal) ∧
    ∃ t, exec (.call 0) (corrected State.reset) = .next t ∧ t.config.retPolicy = .corrected :=
  ⟨⟨_, rfl, rfl, rfl, rfl⟩, ⟨_, rfl, rfl⟩⟩
theorem witness_LiteralRetLeaksACell :
    State.reset.config.retPolicy = .literal ∧ (∃ t, exec .ret State.reset = .next t) ∧ (6 : Reg) ≠ 7 :=
  ⟨rfl, ⟨_, rfl⟩, by decide⟩
theorem witness_JmpToItselfRunsForever :
    AtInstr (code .jmp 0#8 0#8) .jmp 0#8 0#8 ∧ (0#8).toNat = (0 : Reg).val ∧ (code .jmp 0#8 0#8).reg 0 = (code .jmp 0#8 0#8).pc :=
  ⟨code_atInstr _ _ _, rfl, rfl⟩
theorem witness_PushedByteIsFetchedByTheNextStep :
    AtInstr ((code .push 0#8 0#8).setReg 7 3#8) .push 0#8 0#8 ∧ (0#8).toNat = (0 : Reg).val ∧ (0 : Reg) ≠ 7 ∧
    ((code .push 0#8 0#8).setReg 7 3#8).reg 7 - 1#8 = ((code .push 0#8 0#8).setReg 7 3#8).pc + 2#8 ∧
    ∀ m ∈ Mnemonic.all, defaultOpcodes.byte m ≠ ((code .push 0#8 0#8).setReg 7 3#8).reg 0 :=
  ⟨⟨rfl, by decide, by decide, by decide, by decide⟩, by decide⟩
theorem witness_PushOverItselfStillPushes :
    AtInstr ((code .push 0#8 0#8).setReg 7 1#8) .push 0#8 0#8 ∧ (0#8).toNat = (0 : Reg).val ∧ (0 : Reg) ≠ 7 ∧
    ((code .push 0#8 0#8).setReg 7 1#8).reg 7 - 1#8 = ((code .push 0#8 0#8).setReg 7 1#8).pc :=
  ⟨⟨rfl, by decide, by decide, by decide, by decide⟩, by decide⟩

theorem witness_CanonicalMemoriesThatReadAlikeAreEqual :
    Memory.wf [(0, 1#8), (255, 2#8)] ∧
    ∀ a : Addr, Memory.read [(0, 1#8), (255, 2#8)] a = Memory.read [(0, 1#8), (255, 2#8)] a :=
  ⟨by decide, fun _ => rfl⟩
theorem witness_ResetStateIsAsTabulated :
    (6 : Reg) ≠ 7 ∧ State.reset.halt.mem = State.reset.mem ∧ State.reset.halt.config = State.reset.config := ⟨by decide, rfl, rfl⟩
theorem witness_LoadingFillsMemoryFromAddressZero :
    (List.replicate 256 1#8).length ≤ 256 ∧ (6 : Reg) ≠ 7 ∧ 256 < (List.replicate 257 1#8).length := by
  rw [List.length_replicate, List.length_replicate]; decide
theorem witness_PlacedTableWordIsRunNext :
    decodeTableWord 24 0xFF0782 = some (.ldi 7 255#8) ∧ (3 : Addr) ≠ State.reset.pc ∧
    (3 : Addr) ≠ State.reset.pc + 1#8 ∧ (3 : Addr) ≠ State.reset.pc + 2#8 := by decide
theorem witness_StatusReportsHowTheRunEnded :
    State.reset.run = .running ∧ State.reset.halt.run = .halted ∧
    (State.reset.raise (.illegalOpcode 0#8)).run = .faulted (.illegalOpcode 0#8) ∧
    (State.reset.raise (.illegalRegister 8#8)).run = .faulted (.illegalRegister 8#8) := by decide

end Sys2Proof.Tests
end

section
/-! What an instruction's effect reads of the configuration (R5, R55): the effect of every instruction is a state
transformer that leaves the configuration out of account, the effect of RET one such transformer per `RET_POLICY`. -/

namespace Sys2Proof.Machine

/-- The same state in a machine built with the configuration `c` (R5). -/
def State.withConfig (s : State) (c : Config) : State := { s with config := c }

/-- `f` neither reads nor writes the configuration. -/
def ConfigBlind (f : State → State) : Prop := ∀ s c, f (s.withConfig c) = (f s).withConfig c

/-- Every instruction but RET performs one state transformer, blind to the configuration (R5, R55). -/
theorem exec_configBlind_of_ne_ret {i : Instr} (hi : i ≠ .ret) :
    ∃ f, ConfigBlind f ∧ ∀ s, exec i s = .next (f s) := by
  cases i with
  | ldi a imm => exact ⟨_, fun _ _ => rfl, exec_ldi a imm⟩
  | prn a => exact ⟨_, fun _ _ => rfl, exec_prn a⟩
  | hlt => exact ⟨_, fun _ _ => rfl, exec_hlt⟩
  | mul a b => exact ⟨_, fun _ _ => rfl, exec_mul a b⟩
  | add a b => exact ⟨_, fun _ _ => rfl, exec_add a b⟩
  | cmp a b => exact ⟨_, fun _ _ => rfl, exec_cmp a b⟩
  | push a => exact ⟨_, fun _ _ => rfl, exec_push a⟩
  | pop a => exact ⟨_, fun _ _ => rfl, exec_pop a⟩
  | call a => exact ⟨_, fun _ _ => rfl, exec_call a⟩
  | ret => exact absurd rfl hi
  | jmp a => exact ⟨_, fun _ _ => rfl, exec_jmp a⟩
  | jeq a => exact ⟨_, fun _ _ => rfl, exec_jeq a⟩
  | jne a => exact ⟨_, fun _ _ => rfl, exec_jne a⟩

/-- Once `RET_POLICY` is fixed, RET too performs one state transformer blind to the configuration (R113). -/
theorem exec_ret_configBlind (p : RetPolicy) :
    ∃ f, ConfigBlind f ∧ ∀ s : State, s.config.retPolicy = p → exec .ret s = .next (f s) := by
  cases p with
  | literal => exact ⟨_, fun _ _ => rfl, fun _ => exec_ret_literal⟩
  | corrected => exact ⟨_, fun _ _ => rfl, fun _ => exec_ret_corrected⟩

/-- An instruction that performs the same blind transformer before and after a change of configuration answers the same
state but for the configuration. -/
theorem exec_withConfig_of_configBlind {i : Instr} {s t : State} {c : Config} {f : State → State} (hf : ConfigBlind f)
    (hs : exec i s = .next (f s)) (hc : exec i (s.withConfig c) = .next (f (s.withConfig c)))
    (ht : exec i s = .next t) : exec i (s.withConfig c) = .next (t.withConfig c) := by
  obtain rfl : f s = t := by simpa [hs] using ht
  rw [hc, hf]

theorem exec_withConfig_of_ne_ret {i : Instr} {s t : State} (c : Config) (hi : i ≠ .ret) (ht : exec i s = .next t) :
    exec i (s.withConfig c) = .next (t.withConfig c) := by
  obtain ⟨f, hf, he⟩ := exec_configBlind_of_ne_ret hi
  exact exec_withConfig_of_configBlind hf (he s) (he _) ht

theorem exec_ret_withConfig {s t : State} {c : Config} (hp : c.retPolicy = s.config.retPolicy)
    (ht : exec .ret s = .next t) : exec .ret (s.withConfig c) = .next (t.withConfig c) := by
  obtain ⟨f, hf, he⟩ := exec_ret_configBlind s.config.retPolicy
  exact exec_withConfig_of_configBlind hf (he s rfl) (he _ hp) ht

/-- Settles O35: RET reads `RET_POLICY`, which another opcode map leaves as it is; no other instruction reads any of the
configuration. -/
theorem configurationIsReadByDecodeAndRetOnly : Obligations.ConfigurationIsReadByDecodeAndRetOnly := by
  refine ⟨fun i s t o ht => ?_, fun i s t c hi ht => exec_withConfig_of_ne_ret c hi ht⟩
  by_cases hi : i = .ret
  · subst hi
    exact exec_ret_withConfig rfl ht
  · exact exec_withConfig_of_ne_ret _ hi ht

end Sys2Proof.Machine
end

section
/-! What an instruction can do, said once: the relation `Effect` between an instruction, the state it starts from and the
state it leaves. `exec_iff_effect` ties it to `exec`, so that `cases` on it opens one case per instruction (two for RET).
Below it, what an instruction does to each piece of the state. -/

namespace Sys2Proof.Machine

open Sys2Proof.Claims

/-- The state an instruction leaves, one row per instruction and, for RET, per `RET_POLICY` (R80 to R122), as a chain of
primitive updates. -/
inductive Effect (s : State) : Instr → State → Prop where
  | ldi (a : Reg) (imm : Byte) : Effect s (.ldi a imm) ((s.setReg a imm).setPc (s.after 3))
  | prn (a : Reg) : Effect s (.prn a) ((s.output (s.reg a)).setPc (s.after 2))
  | hlt : Effect s .hlt s.halt
  | mul (a b : Reg) :
      Effect s (.mul a b) ((s.setReg a (wrapByte ((s.reg a).toNat * (s.reg b).toNat))).setPc (s.after 3))
  | add (a b : Reg) :
      Effect s (.add a b) ((s.setReg a (wrapByte ((s.reg a).toNat + (s.reg b).toNat))).setPc (s.after 3))
  | cmp (a b : Reg) :
      Effect s (.cmp a b) ((s.setFlags (compareFlags (s.reg a) (s.reg b))).setPc (s.after 3))
  | push (a : Reg) :
      Effect s (.push a) (((s.setReg spIndex (s.reg spIndex - 1#8)).memWrite (s.reg spIndex - 1#8)
        (if a = spIndex then s.reg spIndex - 1#8 else s.reg a)).setPc (s.after 2))
  | pop (a : Reg) :
      Effect s (.pop a) (((s.setReg a (s.memRead (s.reg spIndex))).setReg spIndex
        ((if spIndex = a then s.memRead (s.reg spIndex) else s.reg spIndex) + 1#8)).setPc (s.after 2))
  | call (a : Reg) :
      Effect s (.call a) (((s.setReg spIndex (s.reg spIndex - 1#8)).memWrite (s.reg spIndex - 1#8) (s.after 2)).setPc
        (if a = spIndex then s.reg spIndex - 1#8 else s.reg a))
  | retLiteral (hp : s.config.retPolicy = .literal) :
      Effect s .ret ((s.memWrite (s.reg spIndex) (s.reg spIndex + 1#8)).setPc (s.memRead (s.reg spIndex)))
  | retCorrected (hp : s.config.retPolicy = .corrected) :
      Effect s .ret ((s.setReg spIndex (s.reg spIndex + 1#8)).setPc (s.memRead (s.reg spIndex)))
  | jmp (a : Reg) : Effect s (.jmp a) (s.setPc (s.reg a))
  | jeq (a : Reg) : Effect s (.jeq a) (s.setPc (if s.flags.equal then s.reg a else s.after 2))
  | jne (a : Reg) : Effect s (.jne a) (s.setPc (if s.flags.equal then s.after 2 else s.reg a))

theorem Effect.exec_eq {i : Instr} {s t : State} (h : Effect s i t) : exec i s = .next t := by
  cases h with
  | ldi a imm => exact exec_ldi a imm s
  | prn a => exact exec_prn a s
  | hlt => exact exec_hlt s
  | mul a b => exact exec_mul a b s
  | add a b => exact exec_add a b s
  | cmp a b => exact exec_cmp a b s
  | push a => exact exec_push a s
  | pop a => exact exec_pop a s
  | call a => exact exec_call a s
  | retLiteral hp => exact exec_ret_literal hp
  | retCorrected hp => exact exec_ret_corrected hp
  | jmp a => exact exec_jmp a s
  | jeq a => exact exec_jeq a s
  | jne a => exact exec_jne a s

/-- Every instruction has an effect from every state (R141). -/
theorem exists_effect (i : Instr) (s : State) : ∃ t, Effect s i t := by
  cases i with
  | ret =>
    cases hp : s.config.retPolicy with
    | literal => exact ⟨_, .retLiteral hp⟩
    | corrected => exact ⟨_, .retCorrected hp⟩
  | _ => exact ⟨_, by constructor⟩

theorem exec_iff_effect {i : Instr} {s t : State} : exec i s = .next t ↔ Effect s i t := by
  refine ⟨fun h => ?_, Effect.exec_eq⟩
  obtain ⟨u, hu⟩ := exists_effect i s
  obtain rfl : u = t := by simpa [hu.exec_eq] using h
  exact hu

/-! ### Each piece of the state after an instruction -/

section
variable {i : Instr} {s t : State}

theorem exec_config (h : exec i s = .next t) : t.config = s.config := by
  cases exec_iff_effect.1 h <;> rfl

/-- CMP is the only writer of the flags (R18). -/
theorem exec_flags_of_ne_cmp (hi : ∀ a b, i ≠ .cmp a b) (h : exec i s = .next t) : t.flags = s.flags := by
  cases exec_iff_effect.1 h with
  | cmp a b => exact absurd rfl (hi a b)
  | _ => rfl

theorem exec_cmp_flags {a b : Reg} (h : exec (.cmp a b) s = .next t) :
    t.flags = compareFlags (s.reg a) (s.reg b) := by
  cases exec_iff_effect.1 h
  rfl

/-- An instruction keeps the flags or leaves those of a comparison (R17, R18). -/
theorem exec_flags (h : exec i s = .next t) : t.flags = s.flags ∨ ∃ x y, t.flags = compareFlags x y := by
  by_cases hi : ∃ a b, i = .cmp a b
  · obtain ⟨a, b, rfl⟩ := hi
    exact .inr ⟨_, _, exec_cmp_flags h⟩
  · exact .inl (exec_flags_of_ne_cmp (fun a b e => hi ⟨a, b, e⟩) h)

/-- An instruction keeps the run state or halts the core: none raises a fault (R82, R137). -/
theorem exec_run (h : exec i s = .next t) : t.run = s.run ∨ t.run = .halted := by
  cases exec_iff_effect.1 h with
  | hlt => exact .inr rfl
  | _ => exact .inl rfl

/-- An instruction writes at most one cell (R44). -/
theorem exec_mem (h : exec i s = .next t) : t.mem = s.mem ∨ ∃ a v, t.mem = Memory.write s.mem a v := by
  cases exec_iff_effect.1 h with
  | push _ | call _ | retLiteral _ => exact .inr ⟨_, _, rfl⟩
  | _ => exact .inl rfl

/-- The table of R16. -/
theorem exec_pc (h : exec i s = .next t) : t.pc = nextPc s i := by
  cases exec_iff_effect.1 h with
  | jne a =>
    cases he : s.flags.equal with
    | true => simp [nextPc, he, State.after]
    | false => simp [nextPc, he]
  | _ => rfl

end

end Sys2Proof.Machine
end

section
/-! The invariant (R5, R17, R95): every step keeps it, and so does every number of steps. -/

namespace Sys2Proof.Machine

/-- The flags of a state after one step: the old ones, or those of a comparison (R17, R18). -/
theorem step_flags {s t : State} (h : step s = .next t) : t.flags = s.flags ∨ ∃ x y, t.flags = compareFlags x y := by
  obtain ⟨-, ⟨i, -, he⟩ | ⟨c, -, rfl⟩⟩ := step_cases h
  · exact exec_flags he
  · exact .inl rfl

/-- What the old flags and the flags of every comparison satisfy, the flags after a step satisfy. -/
theorem step_keeps_flags {P : Flags → Prop} (hP : ∀ x y, P (compareFlags x y)) {s t : State} (hs : P s.flags)
    (h : step s = .next t) : P t.flags := by
  obtain e | ⟨x, y, e⟩ := step_flags h
  · exact e ▸ hs
  · exact e ▸ hP x y

theorem step_config {s t : State} (h : step s = .next t) : t.config = s.config := by
  obtain ⟨-, ⟨i, -, he⟩ | ⟨c, -, rfl⟩⟩ := step_cases h
  · exact exec_config he
  · rfl

theorem step_mem_wf {s t : State} (hs : s.mem.wf) (h : step s = .next t) : t.mem.wf := by
  obtain ⟨-, ⟨i, -, he⟩ | ⟨c, -, rfl⟩⟩ := step_cases h
  · obtain e | ⟨a, v, e⟩ := exec_mem he
    · exact e ▸ hs
    · exact e ▸ Memory.wf_write hs a v
  · exact hs

/-- No step ends in the fault that nothing raises (R95, R130). -/
theorem step_run_ne_unsupportedOperation {s t : State} (h : step s = .next t) :
    t.run ≠ .faulted .unsupportedOperation := by
  obtain ⟨hr, ⟨i, -, he⟩ | ⟨c, hd, rfl⟩⟩ := step_cases h
  · obtain e | e := exec_run he <;> simp [e, hr]
  · obtain ⟨ir, rfl⟩ | ⟨v, rfl⟩ := decodeNext_error hd <;> simp

theorem step_keeps_inv {s t : State} (hs : s.Inv) (h : step s = .next t) : t.Inv where
  memory := step_mem_wf hs.memory h
  flags := step_keeps_flags (fun x y => (compareFlags_exactlyOne x y).1) hs.flags h
  opcodes := step_config h ▸ hs.opcodes
  cause := step_run_ne_unsupportedOperation h

/-- Settles O28, field by field of the invariant. -/
theorem stepKeepsTheInvariant : Obligations.StepKeepsTheInvariant :=
  fun _ _ => step_keeps_inv

/-- A run of `k + 1` steps is one step and a run of `k` steps. -/
theorem run_succ {M : Host.Core} {k : Nat} {s t : M.State} (h : M.run (k + 1) s = .next t) :
    ∃ u, M.step s = .next u ∧ M.run k u = .next t := by
  rw [Host.Core.run] at h
  cases hs : M.step s with
  | next u => exact ⟨u, rfl, by simpa [hs] using h⟩
  | fault r => simp [hs] at h
  | refused r => simp [hs] at h

/-- What every step of a machine keeps, every number of steps keeps. -/
theorem run_keeps {M : Host.Core} {P : M.State → Prop} (hstep : ∀ s t, P s → M.step s = .next t → P t) (k : Nat)
    {s t : M.State} (hs : P s) (h : M.run k s = .next t) : P t := by
  induction k generalizing s with
  | zero =>
    obtain rfl : s = t := Host.Outcome.next.inj h
    exact hs
  | succ k ih =>
    obtain ⟨u, hu, ht⟩ := run_succ h
    exact ih (hstep s u hs hu) ht

/-- Settles O29, by induction on the number of steps. -/
theorem runKeepsTheInvariant : Obligations.RunKeepsTheInvariant :=
  fun k _ _ => run_keeps (M := core) stepKeepsTheInvariant k

/-- Settles O31: a comparison leaves exactly one flag set, and a step keeps the flags or leaves those of a comparison. -/
theorem exactlyOneFlagAfterAComparison : Obligations.ExactlyOneFlagAfterAComparison :=
  ⟨fun _ _ _ _ h => exec_cmp_flags h ▸ compareFlags_exactlyOne _ _,
    fun _ _ => step_keeps_flags compareFlags_exactlyOne⟩

end Sys2Proof.Machine
end

section
/-! How a step leaves `pc` (R16). -/

namespace Sys2Proof.Machine

open Sys2Proof.Claims

theorem decodes_iff {s : State} {i : Instr} : Decodes s i ↔ s.decodeNext = .ok i := by
  rw [State.decodeNext_eq]
  rfl

theorem rejects_iff {s : State} {c : FaultCause} : Rejects s c ↔ s.decodeNext = .error c := by
  rw [State.decodeNext_eq]
  rfl

/-- Settles O27: the decoded instruction leaves `pc` as the table says, and a fault leaves it as it is. -/
theorem stepLeavesPcAsTabulated : Obligations.StepLeavesPcAsTabulated := by
  intro s t h
  obtain ⟨-, ⟨i, hd, he⟩ | ⟨c, hd, rfl⟩⟩ := step_cases h
  · refine ⟨fun j hj => ?_, fun c hc => ?_⟩
    · obtain rfl : i = j := by simpa [hd] using decodes_iff.1 hj
      exact exec_pc he
    · simp [rejects_iff, hd] at hc
  · exact ⟨fun j hj => by simp [decodes_iff, hd] at hj, fun _ _ => rfl⟩

end Sys2Proof.Machine
end

section
/-! What is never read: a step from a state with other flags that agree on Equal, or with another output stream, is the
same step (R18, R23). -/

namespace Sys2Proof.Machine

/-! ### The flags -/

@[simp] theorem State.setFlags_decodeNext (s : State) (f : Flags) : (s.setFlags f).decodeNext = s.decodeNext := rfl

/-- An instruction that does not read the flags, or is given the same Equal, has the same effect but for the flags, which
are then the new ones or, after CMP, its own (R18). -/
theorem exec_setFlags {i : Instr} {s t : State} {f : Flags}
    (hf : (∀ a, i ≠ .jeq a ∧ i ≠ .jne a) ∨ f.equal = s.flags.equal) (h : exec i s = .next t) :
    ∃ g, (g = t.flags ∨ g = f) ∧ exec i (s.setFlags f) = .next (t.setFlags g) := by
  simp only [exec_iff_effect] at h ⊢
  cases h with
  | cmp a b => exact ⟨_, .inl rfl, .cmp a b⟩
  | retLiteral hp => exact ⟨f, .inr rfl, .retLiteral hp⟩
  | retCorrected hp => exact ⟨f, .inr rfl, .retCorrected hp⟩
  | jeq a =>
    have hE : f.equal = s.flags.equal := hf.resolve_left fun hi => (hi a).1 rfl
    exact ⟨f, .inr rfl, hE ▸ .jeq a⟩
  | jne a =>
    have hE : f.equal = s.flags.equal := hf.resolve_left fun hi => (hi a).2 rfl
    exact ⟨f, .inr rfl, hE ▸ .jne a⟩
  | _ => exact ⟨f, .inr rfl, by constructor⟩

theorem step_setFlags {s t : State} {f : Flags} (hf : f.equal = s.flags.equal) (h : step s = .next t) :
    ∃ g, (g = t.flags ∨ g = f) ∧ step (s.setFlags f) = .next (t.setFlags g) := by
  obtain ⟨hr, ⟨i, hd, he⟩ | ⟨c, hd, rfl⟩⟩ := step_cases h
  · rw [step_running_ok (s := s.setFlags f) hr hd]
    exact exec_setFlags (.inr hf) he
  · exact ⟨f, .inr rfl, step_running_error (s := s.setFlags f) hr hd⟩

/-- Settles O32: the effect of an instruction, and of a step, from a state with other flags. -/
theorem flagsAreWrittenByCmpAndOnlyEqualIsRead : Obligations.FlagsAreWrittenByCmpAndOnlyEqualIsRead := by
  refine ⟨fun i s t => exec_flags_of_ne_cmp, fun a b s t f h => ?_, fun i s t f hi => exec_setFlags (.inl hi),
    fun s t f => step_setFlags⟩
  cases exec_iff_effect.1 h
  exact exec_cmp a b (s.setFlags f)

/-! ### The output stream -/

/-- The bytes an instruction appends to the output stream (R23, R81). -/
def emitted (s : State) : Instr → List Byte
  | .prn a => [s.reg a]
  | _ => []

theorem emitted_length_le_one (s : State) (i : Instr) : (emitted s i).length ≤ 1 := by
  cases i <;> simp [emitted]

theorem exec_out {i : Instr} {s t : State} (h : exec i s = .next t) : t.out = s.out ++ emitted s i := by
  cases exec_iff_effect.1 h <;> simp [emitted]

/-- The same state with another output stream. -/
def State.withOut (s : State) (o : List Byte) : State := { s with out := o }

@[simp] theorem State.withOut_decodeNext (s : State) (o : List Byte) : (s.withOut o).decodeNext = s.decodeNext := rfl

/-- No instruction reads the output stream (R23). -/
theorem exec_withOut {i : Instr} {s t : State} (o : List Byte) (h : exec i s = .next t) :
    exec i (s.withOut o) = .next (t.withOut (o ++ emitted s i)) := by
  rw [exec_iff_effect] at h ⊢
  cases h with
  | prn a => exact .prn a
  | retLiteral hp =>
    simp only [emitted, List.append_nil]
    exact .retLiteral hp
  | retCorrected hp =>
    simp only [emitted, List.append_nil]
    exact .retCorrected hp
  | _ =>
    simp only [emitted, List.append_nil]
    constructor

/-- Settles O33: a decoded instruction appends what it emits, a fault appends nothing. -/
theorem outputStreamIsNeverRead : Obligations.OutputStreamIsNeverRead := by
  intro s t o h
  obtain ⟨hr, ⟨i, hd, he⟩ | ⟨c, hd, rfl⟩⟩ := step_cases h
  · refine ⟨emitted s i, emitted_length_le_one s i, exec_out he, ?_⟩
    exact (step_running_ok (s := s.withOut o) hr hd).trans (exec_withOut o he)
  · refine ⟨[], by simp, by simp, ?_⟩
    rw [List.append_nil]
    exact step_running_error (s := s.withOut o) hr hd

end Sys2Proof.Machine
end

section
/-! The canonical form of memory is unique (R20): what a canonical memory lists is what it reads as, and a strictly rising
list is determined by its members. -/

namespace Sys2Proof.Machine

/-- A memory in rising order reads, at a listed address, as the byte listed there. -/
theorem Memory.at_of_mem {m : Memory} (hm : m.Pairwise fun c d : Host.Cell => c.1 < d.1) {c : Host.Cell} (hc : c ∈ m) :
    Memory.at m c.1 = c.2 := by
  induction m with
  | nil => cases hc
  | cons d m ih =>
    obtain ⟨hlt, hm⟩ := List.pairwise_cons.1 hm
    rw [Memory.at_cons]
    obtain rfl | hc := List.mem_cons.1 hc
    · simp
    · simp [(hlt c hc).ne, ih hm hc]

/-- An address that does not read as the fill byte is listed. -/
theorem Memory.mem_of_at_ne_fill {m : Memory} {k : Nat} (h : Memory.at m k ≠ imageFill) : (k, Memory.at m k) ∈ m := by
  induction m with
  | nil => exact absurd (Memory.at_nil k) h
  | cons d m ih =>
    rw [Memory.at_cons] at h ⊢
    split at h
    · rename_i hd
      simp [← hd]
    · rename_i hd
      simp [hd, ih h]

/-- The cells a canonical memory lists are those that read as something else than the fill byte. -/
theorem Memory.mem_iff_read {m : Memory} (hm : m.wf) (c : Host.Cell) :
    c ∈ m ↔ c.1 < memSize ∧ c.2 ≠ imageFill ∧ Memory.read m (BitVec.ofNat 8 c.1) = c.2 := by
  have read_eq (hk : c.1 < memSize) : Memory.read m (BitVec.ofNat 8 c.1) = Memory.at m c.1 := by
    rw [Memory.read, BitVec.toNat_ofNat, Nat.mod_eq_of_lt (show c.1 < 2 ^ 8 from hk)]
  constructor
  · intro hc
    obtain ⟨hk, hv⟩ := hm.2 c hc
    exact ⟨hk, hv, (read_eq hk).trans (Memory.at_of_mem hm.1 hc)⟩
  · rintro ⟨hk, hv, hr⟩
    rw [read_eq hk] at hr
    have := Memory.mem_of_at_ne_fill (hr ▸ hv)
    rwa [hr] at this

/-- Settles O42: both memories list the same cells in the same order. -/
theorem canonicalMemoriesThatReadAlikeAreEqual : Obligations.CanonicalMemoriesThatReadAlikeAreEqual := by
  intro m n hm hn h
  have same_cells (c : Host.Cell) : c ∈ m ↔ c ∈ n := by
    rw [Memory.mem_iff_read hm, Memory.mem_iff_read hn, h]
  have : Std.Irrefl fun c d : Host.Cell => c.1 < d.1 := ⟨fun c => lt_irrefl c.1⟩
  have : Std.Antisymm fun c d : Host.Cell => c.1 < d.1 := ⟨fun c d hcd hdc => absurd hcd hdc.asymm⟩
  exact hm.1.eq_of_mem_iff hn.1 same_cells

end Sys2Proof.Machine
end

section
/-! The reset state and the termination status (R25, R26, R150, R153). -/

namespace Sys2Proof.Machine

/-- Registers 0 to 6 are 0 after reset (R26). -/
theorem applyReset_reg_of_ne_sp (s : State) {r : Reg} (hr : r ≠ 7) : s.applyReset.reg r = 0#8 := by
  have resetRegs_get : ∀ r : Reg, r ≠ 7 → resetRegs.get r = 0#8 := by decide
  exact resetRegs_get r hr

/-- Reset keeps memory and the configuration, and reads nothing else of the state (R150, R153). -/
theorem applyReset_congr {s t : State} (hm : s.mem = t.mem) (hc : s.config = t.config) : s.applyReset = t.applyReset := by
  simp [State.applyReset, hm, hc]

/-- Settles O44: every field of a reset state is a constant or one of the two that reset keeps. -/
theorem resetStateIsAsTabulated : Obligations.ResetStateIsAsTabulated := by
  refine ⟨fun _ => rfl, rfl, rfl, fun s => ?_, fun s t => applyReset_congr⟩
  exact ⟨rfl, rfl, fun r => applyReset_reg_of_ne_sp s, rfl, rfl, rfl, fun _ => rfl, rfl⟩

theorem status_running {s : State} (h : s.run = .running) : s.status = none := by
  simp [State.status, h]

theorem status_halted {s : State} (h : s.run = .halted) : s.status = some 0 := by
  simp [State.status, h]

theorem status_faulted {s : State} {c : FaultCause} (h : s.run = .faulted c) : s.status = FaultCause.status c := by
  simp [State.status, h]

/-- Settles O47, one run state at a time. -/
theorem statusReportsHowTheRunEnded : Obligations.StatusReportsHowTheRunEnded :=
  fun _ => ⟨status_running, status_halted, fun _ => status_faulted, fun _ => status_faulted⟩

end Sys2Proof.Machine
end

section
/-! Memory as data (R30, R44): which instructions read and write it, which cells, and what they write. Each lemma
compares an instruction's effect with its effect from the same state with another memory. -/

namespace Sys2Proof.Machine

/-- The same state with another memory. -/
def State.withMem (s : State) (m : Memory) : State := { s with mem := m }

@[simp] theorem State.withMem_memRead (s : State) (m : Memory) (a : Addr) :
    (s.withMem m).memRead a = Memory.read m a := rfl

/-- The nine instructions that touch memory through their fetch only. -/
theorem exec_withMem_of_no_data_access {i : Instr} {s t : State} (m : Memory)
    (hi : ∀ a, i ≠ .push a ∧ i ≠ .pop a ∧ i ≠ .call a) (hr : i ≠ .ret) (h : exec i s = .next t) :
    t.mem = s.mem ∧ exec i (s.withMem m) = .next (t.withMem m) := by
  rw [exec_iff_effect] at h ⊢
  cases h with
  | push a => exact absurd rfl (hi a).1
  | pop a => exact absurd rfl (hi a).2.1
  | call a => exact absurd rfl (hi a).2.2
  | retLiteral _ | retCorrected _ => exact absurd rfl hr
  | _ => exact ⟨rfl, by constructor⟩

/-- PUSH reads no cell and writes the one below the top (R101). -/
theorem exec_push_withMem {a : Reg} {s t : State} (m : Memory) (h : exec (.push a) s = .next t) :
    exec (.push a) (s.withMem m) = .next (t.withMem
      (Memory.write m (s.reg 7 - 1#8) (if a = 7 then s.reg 7 - 1#8 else s.reg a))) := by
  cases exec_iff_effect.1 h
  exact exec_push a (s.withMem m)

/-- CALL reads no cell and writes the one below the top (R110). -/
theorem exec_call_withMem {a : Reg} {s t : State} (m : Memory) (h : exec (.call a) s = .next t) :
    exec (.call a) (s.withMem m) = .next (t.withMem (Memory.write m (s.reg 7 - 1#8) (s.pc + 2#8))) := by
  cases exec_iff_effect.1 h
  exact exec_call a (s.withMem m)

/-- POP reads the top cell only and writes none (R102). -/
theorem exec_pop_withMem {a : Reg} {s t : State} {m : Memory} (hm : Memory.read m (s.reg 7) = s.memRead (s.reg 7))
    (h : exec (.pop a) s = .next t) : exec (.pop a) (s.withMem m) = .next (t.withMem m) := by
  cases exec_iff_effect.1 h
  rw [show s.memRead (s.reg spIndex) = (s.withMem m).memRead (s.reg spIndex) from hm.symm]
  exact exec_pop a (s.withMem m)

/-- RET reads the top cell only, and under the literal policy writes it (R111, R112). -/
theorem exec_ret_withMem {s t : State} {m : Memory} (hm : Memory.read m (s.reg 7) = s.memRead (s.reg 7))
    (h : exec .ret s = .next t) :
    exec .ret (s.withMem m) = .next (t.withMem
      (if s.config.retPolicy = .literal then Memory.write m (s.reg 7) (s.reg 7 + 1#8) else m)) := by
  have hm : s.memRead (s.reg spIndex) = (s.withMem m).memRead (s.reg spIndex) := hm.symm
  cases exec_iff_effect.1 h with
  | retLiteral hp =>
    rw [if_pos hp, hm]
    exact exec_ret_literal (s := s.withMem m) hp
  | retCorrected hp =>
    rw [if_neg (by simp [hp]), hm]
    exact exec_ret_corrected (s := s.withMem m) hp

/-- Settles O34: the nine instructions without a data access, then PUSH, CALL, POP and RET, each from a state with
another memory. -/
theorem dataAccessesAreThoseTabulated : Obligations.DataAccessesAreThoseTabulated :=
  ⟨fun _ _ _ m hi hr h => exec_withMem_of_no_data_access m hi hr h, fun _ _ _ m h => exec_push_withMem m h,
    fun _ _ _ m h => exec_call_withMem m h, fun _ _ _ _ hm h => exec_pop_withMem hm h,
    fun _ _ _ hm h => exec_ret_withMem hm h⟩

end Sys2Proof.Machine
end

section
/-! A PUSH whose store lands on code (R42): it executes with the bytes it fetched, and the next fetch reads the byte it
stored. -/

namespace Sys2Proof.Machine

open Sys2Proof.Claims

/-- An instruction at `pc` whose operand bytes are legal is executed (R71 to R74). -/
theorem step_of_atInstr {s : State} {m : Mnemonic} {opa opb : Byte} {i : Instr} (h : AtInstr s m opa opb)
    (hi : decodeOperands m opa opb = .ok i) : step s = exec i s := by
  have fetched : Decodes s i := by
    rw [Decodes, h.ir, h.a, h.b, decode_byte h.distinct, hi]
  exact step_running_ok h.running (decodes_iff.1 fetched)

/-- A running core raises IllegalOpcode of a byte of no row that stands at `pc` (R72, R131). -/
theorem raises_illegalOpcode {s : State} {ir : Byte} (hr : s.run = .running) (hir : s.memRead s.pc = ir)
    (h : ∀ m, s.config.opcodes.byte m ≠ ir) : Raises s (.illegalOpcode ir) := by
  have rejected : Rejects s (.illegalOpcode ir) := by
    rw [Rejects, hir]
    exact decode_illegalOpcode h _ _
  exact step_running_error hr (rejects_iff.1 rejected)

/-- The step at a PUSH of a register other than 7 (R101). -/
theorem step_push_of_ne_sp {s : State} {a : Reg} {opa opb : Byte} (h : AtInstr s .push opa opb)
    (hopa : opa.toNat = a.val) (ha : a ≠ 7) :
    step s = .next (((s.setReg 7 (s.reg 7 - 1#8)).memWrite (s.reg 7 - 1#8) (s.reg a)).setPc (s.pc + 2#8)) := by
  have decoded : decodeOperands .push opa opb = .ok (.push a) := by
    simp [decodeOperands, decodeR_eq, regOperand_ok hopa]
  rw [step_of_atInstr h decoded, exec_push, if_neg (show a ≠ spIndex from ha)]
  rfl

/-- Settles O40: the next step fetches the cell the PUSH has just written. -/
theorem pushedByteIsFetchedByTheNextStep : Obligations.PushedByteIsFetchedByTheNextStep := by
  intro s a opa opb h hopa ha hland hbyte
  refine ⟨_, step_push_of_ne_sp h hopa ha, ?_⟩
  exact raises_illegalOpcode h.running (by simp [hland]) hbyte

/-- Settles O41: the effect is that of the fetched PUSH, wherever its store lands. -/
theorem pushOverItselfStillPushes : Obligations.PushOverItselfStillPushes := by
  intro s a opa opb h hopa ha hland
  refine ⟨_, step_push_of_ne_sp h hopa ha, ?_, ?_, rfl⟩
  · simp [hland]
  · simp [hland]

end Sys2Proof.Machine
end

section
/-! The domain of the decoder (R53, R58, R73, R133): a row's operand check answers in one of three ways, said once for
every format. -/

namespace Sys2Proof

theorem isRegByte_iff {v : Byte} : isRegByte v = true ↔ v.toNat ≤ 7 := decide_eq_true_iff

/-- Operand A is checked in every format but `Z`, operand B in `RR` alone (R53). -/
theorem operandsOk_iff {f : Format} {opa opb : Byte} :
    operandsOk f opa opb = true ↔ (f ≠ .z → opa.toNat ≤ 7) ∧ (f = .rr → opb.toNat ≤ 7) := by
  cases f <;> simp [operandsOk, isRegByte_iff]

/-- What the operand check of a row of format `f` can answer, operand A looked at before operand B (R73, R133). -/
inductive OperandAnswer (f : Format) (opa opb : Byte) : Except FaultCause Instr → Prop where
  | accepted (i : Instr) (ok : operandsOk f opa opb = true) : OperandAnswer f opa opb (.ok i)
  | badA (hf : f ≠ .z) (ha : 7 < opa.toNat) : OperandAnswer f opa opb (.error (.illegalRegister opa))
  | badB (hf : f = .rr) (ha : opa.toNat ≤ 7) (hb : 7 < opb.toNat) :
      OperandAnswer f opa opb (.error (.illegalRegister opb))

/-- A format whose one register is operand A. -/
theorem decodeR_answer {f : Format} {opa opb : Byte} (mk : Reg → Instr) (hf : f ≠ .z)
    (hok : operandsOk f opa opb = isRegByte opa) : OperandAnswer f opa opb (decodeR mk opa) := by
  rcases decodeR_cases mk opa with ⟨a, ha, e⟩ | ⟨ha, e⟩
  · exact e ▸ .accepted _ (hok.trans (isRegByte_iff.2 (by omega)))
  · exact e ▸ .badA hf ha

theorem decodeRR_answer {opa opb : Byte} (mk : Reg → Reg → Instr) :
    OperandAnswer .rr opa opb (decodeRR mk opa opb) := by
  rcases decodeRR_cases mk opa opb with ⟨a, b, ha, hb, e⟩ | ⟨ha, e⟩ | ⟨ha, hb, e⟩
  · exact e ▸ .accepted _ (Bool.and_eq_true_iff.2 ⟨isRegByte_iff.2 (by omega), isRegByte_iff.2 (by omega)⟩)
  · exact e ▸ .badA (by decide) ha
  · exact e ▸ .badB rfl ha hb

/-- The operand check of every row, by its format. -/
theorem decodeOperands_answer (m : Mnemonic) (opa opb : Byte) :
    OperandAnswer m.format opa opb (decodeOperands m opa opb) := by
  cases m with
  | hlt | ret => exact .accepted _ rfl
  | mul | add | cmp => exact decodeRR_answer _
  | _ => exact decodeR_answer _ (by decide) rfl

section
variable {f : Format} {opa opb : Byte} {r : Except FaultCause Instr}

theorem OperandAnswer.ok_iff (h : OperandAnswer f opa opb r) : (∃ i, r = .ok i) ↔ operandsOk f opa opb = true := by
  cases h with
  | accepted i ok => exact iff_of_true ⟨i, rfl⟩ ok
  | badA hf ha => exact iff_of_false nofun fun ok => ha.not_ge ((operandsOk_iff.1 ok).1 hf)
  | badB hf _ hb => exact iff_of_false nofun fun ok => hb.not_ge ((operandsOk_iff.1 ok).2 hf)

theorem OperandAnswer.eq_badA (h : OperandAnswer f opa opb r) (hf : f ≠ .z) (ha : 7 < opa.toNat) :
    r = .error (.illegalRegister opa) := by
  cases h with
  | accepted i ok => exact absurd ((operandsOk_iff.1 ok).1 hf) ha.not_ge
  | badA => rfl
  | badB _ ha' => exact absurd ha' ha.not_ge

theorem OperandAnswer.eq_badB (h : OperandAnswer f opa opb r) (hf : f = .rr) (ha : opa.toNat ≤ 7)
    (hb : 7 < opb.toNat) : r = .error (.illegalRegister opb) := by
  cases h with
  | accepted i ok => exact absurd ((operandsOk_iff.1 ok).2 hf) hb.not_ge
  | badA _ ha' => exact absurd ha ha'.not_ge
  | badB => rfl

end

/-- Settles O17: what decodes has its row's opcode, and under a row's opcode the decoder is that row's operand check. -/
theorem decoderAcceptsExactlyTheTable : Obligations.DecoderAcceptsExactlyTheTable := by
  intro o ir opa opb ho
  have accepts_iff (m : Mnemonic) :
      (∃ i, decode o (o.byte m) opa opb = .ok i) ↔ (RawInstr.mk m opa opb).wf = true := by
    rw [decode_byte ho]
    exact (decodeOperands_answer m opa opb).ok_iff
  refine ⟨⟨fun ⟨i, hi⟩ => ?_, ?_⟩, fun hir => decode_illegalOpcode hir opa opb, ?_⟩
  · obtain rfl := decode_ok_byte hi
    exact ⟨i.mnemonic, rfl, (accepts_iff _).1 ⟨i, hi⟩⟩
  · rintro ⟨m, rfl, hwf⟩
    exact (accepts_iff m).2 hwf
  · rintro m rfl
    rw [decode_byte ho]
    exact ⟨(decodeOperands_answer m opa opb).eq_badA, (decodeOperands_answer m opa opb).eq_badB⟩

end Sys2Proof
end

section
/-! How many byte values are no opcode (R56): the opcodes among 0..255 are the map's 13 bytes, each once. -/

namespace Sys2Proof

/-- The lookup succeeds exactly on the bytes of the map (R56). -/
theorem OpcodeMap.lookup_isSome_iff {o : OpcodeMap} {ir : Byte} : (o.lookup ir).isSome ↔ ir ∈ o.toList := by
  simp [OpcodeMap.lookup, o.toList_eq]

/-- On a well-formed map the byte values that are opcodes are a rearrangement of its 13 bytes (R56). -/
theorem OpcodeMap.opcodes_perm_toList {o : OpcodeMap} (h : o.wf) :
    ((List.range 256).filter fun n => (o.lookup (BitVec.ofNat 8 n)).isSome).Perm (o.toList.map BitVec.toNat) := by
  refine (List.perm_ext_iff_of_nodup (List.nodup_range.filter _) (h.map fun _ _ => BitVec.eq_of_toNat_eq)).2 fun n => ?_
  simp only [List.mem_filter, List.mem_range, OpcodeMap.lookup_isSome_iff, List.mem_map]
  constructor
  · rintro ⟨hn, hmem⟩
    exact ⟨_, hmem, Nat.mod_eq_of_lt hn⟩
  · rintro ⟨b, hb, rfl⟩
    exact ⟨b.isLt, by simpa using hb⟩

/-- Settles O18: the 256 byte values split into the 13 opcodes and the rest. -/
theorem illegalOpcodesAreTheOther243 : Obligations.IllegalOpcodesAreTheOther243 := by
  refine ⟨fun o ho => ?_, by decide, by decide⟩
  have legal : ((List.range 256).filter fun n => (o.lookup (BitVec.ofNat 8 n)).isSome).length = 13 :=
    (OpcodeMap.opcodes_perm_toList ho).length_eq
  have parts := List.length_eq_length_filter_add (l := List.range 256)
    fun n => (o.lookup (BitVec.ofNat 8 n)).isSome
  simp only [Option.not_isSome, List.length_range, legal] at parts
  omega

end Sys2Proof
end

section
/-! The step (R70 to R75): when it is defined, and what it is when the three bytes at `pc` decode and when the decoder
rejects them. -/

namespace Sys2Proof.Machine

open Sys2Proof.Claims

/-- A running core answers a next state, whether the fetched bytes decode or not (R70). -/
theorem exists_step_of_running {s : State} (hr : s.run = .running) : ∃ t, step s = .next t := by
  cases hd : s.decodeNext with
  | ok i =>
    obtain ⟨t, ht⟩ := exists_effect i s
    exact ⟨t, (step_running_ok hr hd).trans ht.exec_eq⟩
  | error c => exact ⟨s.raise c, step_running_error hr hd⟩

/-- Settles O22: only a running core answers a next state, and a run of `k + 1` steps begins with one step. -/
theorem stepIsDefinedExactlyWhenRunning : Obligations.StepIsDefinedExactlyWhenRunning := by
  refine ⟨fun s => ⟨fun ⟨t, ht⟩ => (step_cases ht).1, exists_step_of_running⟩, fun s => step_halted,
    fun s c => step_faulted, fun s k hs t ht => ?_⟩
  obtain ⟨u, hu, -⟩ := run_succ ht
  exact hs (step_cases hu).1

/-- Settles O20: the decoder accepts the three bytes at `pc`. -/
theorem stepRunsTheDecodedInstruction : Obligations.StepRunsTheDecodedInstruction :=
  fun _ _ hr hd => step_running_ok hr (decodes_iff.1 hd)

/-- Settles O23: the fault is taken, and the state it leaves is a faulted one, with that state's status and step. -/
theorem unknownOpcodeRaisesIllegalOpcode : Obligations.UnknownOpcodeRaisesIllegalOpcode :=
  fun _ hr hir => ⟨_, raises_illegalOpcode hr rfl hir, rfl,
    status_faulted (c := .illegalOpcode _) rfl, step_faulted rfl⟩

/-- An instruction at `pc` whose operand check fails raises the fault of the check (R73, R137). -/
theorem raises_of_atInstr {s : State} {m : Mnemonic} {opa opb : Byte} {c : FaultCause} (h : AtInstr s m opa opb)
    (hc : decodeOperands m opa opb = .error c) : Raises s c := by
  have rejected : Rejects s c := by
    rw [Rejects, h.ir, h.a, h.b, decode_byte h.distinct, hc]
  exact step_running_error h.running (rejects_iff.1 rejected)

/-- Settles O24: the step at a row is what the row's operand check answers. -/
theorem badRegisterOperandRaisesIllegalRegister : Obligations.BadRegisterOperandRaisesIllegalRegister := by
  intro s m opa opb h
  have answer := decodeOperands_answer m opa opb
  refine ⟨fun hf ha => raises_of_atInstr h (answer.eq_badA hf ha),
    fun hf ha hb => raises_of_atInstr h (answer.eq_badB hf ha hb), fun hwf => ?_⟩
  obtain ⟨i, hi⟩ := answer.ok_iff.2 hwf
  exact ⟨i, decodeOperands_mnemonic hi, step_of_atInstr h hi⟩

end Sys2Proof.Machine
end

section
/-! The frame of a step (R14, R76): for each piece of the state, the instructions that can change it; a fault changes the
run state alone. -/

namespace Sys2Proof.Machine

open Sys2Proof.Claims

theorem State.setReg_reg_of_ne {s : State} {r q : Reg} {v : Byte} (h : q ≠ r) : (s.setReg r v).reg q = s.reg q := by
  rw [State.setReg_reg, if_neg h]

section
variable {i : Instr} {s t : State}

/-- An instruction keeps every register that the table of R14 does not give it. -/
theorem exec_reg_of_notMem_writtenRegs {r : Reg} (hr : r ∉ writtenRegs s.config.retPolicy i)
    (h : exec i s = .next t) : t.reg r = s.reg r := by
  cases exec_iff_effect.1 h with
  | ldi _ _ | mul _ _ | add _ _ | push _ | call _ =>
    simp only [State.setPc_reg, State.memWrite_reg]
    exact State.setReg_reg_of_ne (mt List.mem_singleton.2 hr)
  | pop a =>
    obtain ⟨ha, hsp⟩ : r ≠ a ∧ r ≠ spIndex := by simpa [writtenRegs, spIndex] using hr
    rw [State.setPc_reg, State.setReg_reg_of_ne hsp, State.setReg_reg_of_ne ha]
  | retCorrected hp =>
    have hsp : r ≠ spIndex := by simpa [writtenRegs, spIndex, hp] using hr
    rw [State.setPc_reg, State.setReg_reg_of_ne hsp]
  | _ => rfl

/-- The three forms that store (R44). -/
theorem stores_of_exec_mem_ne (hm : t.mem ≠ s.mem) (h : exec i s = .next t) :
    (∃ a, i = .push a) ∨ (∃ a, i = .call a) ∨ (i = .ret ∧ s.config.retPolicy = .literal) := by
  cases exec_iff_effect.1 h with
  | push a => exact .inl ⟨a, rfl⟩
  | call a => exact .inr (.inl ⟨a, rfl⟩)
  | retLiteral hp => exact .inr (.inr ⟨rfl, hp⟩)
  | _ => exact absurd rfl hm

theorem exists_cmp_of_exec_flags_ne (hf : t.flags ≠ s.flags) (h : exec i s = .next t) : ∃ a b, i = .cmp a b := by
  by_contra hi
  exact hf (exec_flags_of_ne_cmp (fun a b e => hi ⟨a, b, e⟩) h)

theorem exists_prn_of_exec_out_ne (ho : t.out ≠ s.out) (h : exec i s = .next t) :
    ∃ a, i = .prn a ∧ t.out = s.out ++ [s.reg a] := by
  cases exec_iff_effect.1 h with
  | prn a => exact ⟨a, rfl, rfl⟩
  | _ => exact absurd rfl ho

theorem eq_hlt_of_exec_run_ne (hr : t.run ≠ s.run) (h : exec i s = .next t) : i = .hlt ∧ t.run = .halted := by
  cases exec_iff_effect.1 h with
  | hlt => exact ⟨rfl, rfl⟩
  | _ => exact absurd rfl hr

end

/-- Settles O26: piece by piece for a decoded instruction; a fault keeps every piece but the run state. -/
theorem stepChangesOnlyWhatTheInstructionNames : Obligations.StepChangesOnlyWhatTheInstructionNames := by
  intro s t h
  refine ⟨step_config h, ?_⟩
  obtain ⟨-, ⟨i, hd, he⟩ | ⟨c, hd, rfl⟩⟩ := step_cases h
  · have hd : Decodes s i := decodes_iff.2 hd
    refine ⟨fun r hr => ⟨i, hd, ?_⟩, fun hf => ?_, fun hm => ?_, fun ho => ?_, fun hr => ?_⟩
    · by_contra hw
      exact hr (exec_reg_of_notMem_writtenRegs hw he)
    · obtain ⟨a, b, rfl⟩ := exists_cmp_of_exec_flags_ne hf he
      exact ⟨a, b, hd⟩
    · obtain ⟨a, rfl⟩ | ⟨a, rfl⟩ | ⟨rfl, hp⟩ := stores_of_exec_mem_ne hm he
      · exact .inl ⟨a, hd⟩
      · exact .inr (.inl ⟨a, hd⟩)
      · exact .inr (.inr ⟨hd, hp⟩)
    · obtain ⟨a, rfl, hout⟩ := exists_prn_of_exec_out_ne ho he
      exact ⟨a, hd, hout⟩
    · obtain ⟨rfl, hrun⟩ := eq_hlt_of_exec_run_ne hr he
      exact .inl ⟨hd, hrun⟩
  · exact ⟨fun r hr => absurd rfl hr, fun hf => absurd rfl hf, fun hm => absurd rfl hm, fun ho => absurd rfl ho,
      fun _ => .inr ⟨c, rejects_iff.2 hd, rfl⟩⟩

end Sys2Proof.Machine
end

section
/-! A word placed at `pc` (R71, log entry 13): the next fetch reads its three bytes, and every other cell reads
as before. -/

namespace Sys2Proof

/-- An opcode-table word that reads as `i` is three bytes that decode to `i` under the default opcode map. -/
theorem decode_of_decodeTableWord {nbits w : Nat} {i : Instr} (h : decodeTableWord nbits w = some i) :
    decode defaultOpcodes (tableByte nbits w 0) (tableByte nbits w 1) (tableByte nbits w 2) = .ok i := by
  unfold decodeTableWord at h
  split at h
  · rename_i hd
    cases h
    exact hd
  · cases h

end Sys2Proof

namespace Sys2Proof.Machine

open Sys2Proof.Claims

/-- Addresses at different distances below 256 past `pc` are different cells (R33). -/
theorem State.after_inj {s : State} {m n : Nat} (hm : m < 256) (hn : n < 256) : s.after m = s.after n ↔ m = n := by
  rw [← BitVec.toNat_inj, State.after_toNat, State.after_toNat]
  omega

/-- Placing three bytes writes the three cells at `pc` and no other. -/
theorem State.placeAtPc_memRead (s : State) (b0 b1 b2 : Byte) (a : Addr) :
    (s.placeAtPc b0 b1 b2).memRead a =
      if a = s.after 2 then b2 else if a = s.after 1 then b1 else if a = s.pc then b0 else s.memRead a := by
  simp [State.placeAtPc]

/-- The next fetch reads the three bytes placed at `pc` (R71). -/
theorem State.placeAtPc_fetch (s : State) (b0 b1 b2 : Byte) : (s.placeAtPc b0 b1 b2).fetch = ⟨b0, b1, b2⟩ := by
  have after_eq (n : Nat) : (s.placeAtPc b0 b1 b2).after n = s.after n := rfl
  simp [State.fetch, after_eq, State.placeAtPc_memRead, ← State.after_zero, State.after_inj]

/-- Settles O46: the placed bytes are fetched and decoded under the default opcode map. -/
theorem placedTableWordIsRunNext : Obligations.PlacedTableWordIsRunNext := by
  intro s nbits w i h
  have decoded : (s.withFetchWord nbits w).decodeNext = .ok i := by
    rw [State.decodeNext, State.withFetchWord, State.placeAtPc_fetch]
    exact decode_of_decodeTableWord h
  refine ⟨step_running_ok rfl decoded, fun _ _ => rfl, rfl, rfl, rfl, rfl, fun a h0 h1 h2 => ?_⟩
  rw [State.withFetchWord, State.placeAtPc_memRead]
  exact (if_neg h2).trans ((if_neg h1).trans (if_neg h0))

end Sys2Proof.Machine
end

section
/-! The step at an instruction of format `Z`, or of a format whose one register is operand A (R51, R53, R73): which
instruction runs, and the fault of a bad operand A. -/

namespace Sys2Proof.Machine

open Sys2Proof.Claims

/-- A row whose operand check is `decodeR` raises IllegalRegister of an operand A above 7, and else runs its
instruction with the register operand A names (R53, R73). -/
theorem step_of_decodeR {s : State} {m : Mnemonic} {opa opb : Byte} {mk : Reg → Instr} (h : AtInstr s m opa opb)
    (hm : decodeOperands m opa opb = decodeR mk opa) :
    (7 < opa.toNat → Raises s (.illegalRegister opa)) ∧ ∀ a : Reg, opa.toNat = a.val → step s = exec (mk a) s := by
  rw [decodeR_eq] at hm
  constructor
  · intro hbad
    exact raises_of_atInstr h (by rw [hm, regOperand_error hbad])
  · intro a ha
    exact step_of_atInstr h (by rw [hm, regOperand_ok ha])

/-- A row whose operand check accepts any two bytes runs its one instruction (R53). -/
theorem runsZ_of_decodeOperands {m : Mnemonic} {i : Instr} (hm : ∀ opa opb, decodeOperands m opa opb = .ok i) :
    RunsZ m i :=
  fun _ opa opb h => step_of_atInstr h (hm opa opb)

theorem runsR_of_decodeOperands {m : Mnemonic} {mk : Reg → Instr}
    (hm : ∀ opa opb, decodeOperands m opa opb = decodeR mk opa) : RunsR m mk :=
  fun _ opa opb h => step_of_decodeR h (hm opa opb)

/-- Operand B of a format `RI` row is part of the instruction that operand A selects (R54). -/
theorem runsRI_of_decodeOperands {m : Mnemonic} {mk : Reg → Byte → Instr}
    (hm : ∀ opa opb, decodeOperands m opa opb = decodeRI mk opa opb) : RunsRI m mk :=
  fun _ opa opb h => step_of_decodeR h (hm opa opb)

end Sys2Proof.Machine
end

section
/-! LDI, PRN and HLT (R80 to R82): result, frame, and the step at their bytes. -/

namespace Sys2Proof.Machine

open Sys2Proof.Claims

/-- Settles O1: the register write of LDI, then its advance of `pc` by 3. -/
theorem ldiLoadsImmediate : Obligations.LdiLoadsImmediate := by
  refine ⟨fun a imm s => ⟨_, exec_ldi a imm s, ?result, ?pc, ?regs, fun _ => rfl, rfl, rfl, rfl, rfl⟩,
    runsRI_of_decodeOperands fun _ _ => rfl⟩
  case result => simp
  case pc => exact s.after_toNat 3
  case regs => exact fun r hr => exec_reg_of_notMem_writtenRegs (i := .ldi a imm) hr (exec_ldi a imm s)

/-- Settles O2: PRN appends to the output stream and advances `pc` by 2. -/
theorem prnEmitsRegister : Obligations.PrnEmitsRegister :=
  ⟨fun a s => ⟨_, exec_prn a s, rfl, s.after_toNat 2, fun _ _ => rfl, fun _ => rfl, rfl, rfl, rfl⟩,
    runsR_of_decodeOperands fun _ _ => rfl⟩

/-- A step that ends halted was a step of HLT: the core was running before it, a fault ends in another run state, and no
other instruction changes the run state (R82). -/
theorem decodes_hlt_of_step_halted {s t : State} (h : step s = .next t) (ht : t.run = .halted) : Decodes s .hlt := by
  obtain ⟨hr, ⟨i, hd, he⟩ | ⟨c, -, rfl⟩⟩ := step_cases h
  · have changed : t.run ≠ s.run := by simp [ht, hr]
    obtain ⟨rfl, -⟩ := eq_hlt_of_exec_run_ne changed he
    exact decodes_iff.2 hd
  · simp at ht

/-- Settles O3: HLT writes the run state alone, and it alone writes HALTED there. -/
theorem hltHaltsTheCore : Obligations.HltHaltsTheCore :=
  ⟨fun s => ⟨_, exec_hlt s, rfl, rfl, fun _ _ => rfl, fun _ => rfl, rfl, rfl, rfl⟩,
    runsZ_of_decodeOperands fun _ _ => rfl, fun _ _ => decodes_hlt_of_step_halted⟩

end Sys2Proof.Machine
end

section
/-! The step at an instruction of format `RR` (R51, R53, R73): which instruction runs, and the fault of a bad operand,
A before B. -/

namespace Sys2Proof

/-- Two register operand bytes of at most 7 are their own indices (R53). -/
theorem decodeRR_ok {opa opb : Byte} {a b : Reg} (mk : Reg → Reg → Instr) (ha : opa.toNat = a.val)
    (hb : opb.toNat = b.val) : decodeRR mk opa opb = .ok (mk a b) := by
  simp [decodeRR, decodeR_eq, regOperand_ok ha, regOperand_ok hb]

end Sys2Proof

namespace Sys2Proof.Machine

open Sys2Proof.Claims

/-- A row whose operand check is `decodeRR` raises IllegalRegister of the first operand above 7, and else runs its
instruction with the two registers (R53, R73). -/
theorem runsRR_of_decodeOperands {m : Mnemonic} {mk : Reg → Reg → Instr}
    (hm : ∀ opa opb, decodeOperands m opa opb = decodeRR mk opa opb) : RunsRR m mk := by
  intro s opa opb h
  have answer : OperandAnswer .rr opa opb (decodeOperands m opa opb) := hm opa opb ▸ decodeRR_answer mk
  refine ⟨fun ha => raises_of_atInstr h (answer.eq_badA (by decide) ha),
    fun ha hb => raises_of_atInstr h (answer.eq_badB rfl ha hb), fun a b ha hb => ?_⟩
  exact step_of_atInstr h ((hm opa opb).trans (decodeRR_ok mk ha hb))

end Sys2Proof.Machine
end

section
/-! MUL, ADD and CMP (R90 to R93): result, frame, and the step at their bytes. -/

namespace Sys2Proof.Machine

open Sys2Proof.Claims

/-- The integer sum reduced to a byte is the sum of the bytes (R90). -/
theorem wrapByte_toNat_add (x y : Byte) : wrapByte (x.toNat + y.toNat) = x + y :=
  (BitVec.add_def x y).symm

/-- The integer product reduced to a byte is the product of the bytes (R90). -/
theorem wrapByte_toNat_mul (x y : Byte) : wrapByte (x.toNat * y.toNat) = x * y :=
  (BitVec.mul_def (x := x) (y := y)).symm

/-- Settles O43: the byte written is the sum or product in `BitVec 8`, which is correct in either reading of the bytes. -/
theorem addAndMulAreCorrectForSignedBytes : Obligations.AddAndMulAreCorrectForSignedBytes := by
  refine ⟨fun a b s => ⟨_, exec_add a b s, ?add⟩, fun a b s => ⟨_, exec_mul a b s, ?mul⟩⟩
  case add =>
    rw [State.setPc_reg, State.setReg_reg, if_pos rfl, wrapByte_toNat_add]
    exact BitVec.toInt_add _ _
  case mul =>
    rw [State.setPc_reg, State.setReg_reg, if_pos rfl, wrapByte_toNat_mul]
    exact BitVec.toInt_mul _ _

/-- What writing one register and advancing `pc` leaves: `pc` wraps, and everything but the register is kept (R16,
R76). -/
theorem setReg_setPc_after_frame (s : State) (a : Reg) (v : Byte) (n : Nat) :
    ((s.setReg a v).setPc (s.after n)).pc.toNat = (s.pc.toNat + n) % 256 ∧
      RegsKept [a] s ((s.setReg a v).setPc (s.after n)) ∧ MemKept s ((s.setReg a v).setPc (s.after n)) ∧
      FlagsKept s ((s.setReg a v).setPc (s.after n)) ∧ OutRunConfigKept s ((s.setReg a v).setPc (s.after n)) :=
  ⟨s.after_toNat n, fun _ hr => State.setReg_reg_of_ne (mt List.mem_singleton.2 hr), fun _ => rfl, rfl, rfl, rfl, rfl⟩

/-- Settles O4: one register write of the reduced product, then the advance of `pc` by 3. -/
theorem mulWritesProductModulo256 : Obligations.MulWritesProductModulo256 := by
  refine ⟨fun a b s => ⟨_, exec_mul a b s, ?result, setReg_setPc_after_frame s a _ 3⟩,
    runsRR_of_decodeOperands fun _ _ => rfl⟩
  case result => simp

/-- Settles O5: one register write of the reduced sum, then the advance of `pc` by 3. -/
theorem addWritesSumModulo256 : Obligations.AddWritesSumModulo256 := by
  refine ⟨fun a b s => ⟨_, exec_add a b s, ?result, setReg_setPc_after_frame s a _ 3⟩,
    runsRR_of_decodeOperands fun _ _ => rfl⟩
  case result => simp

section
variable (x y : Byte)

theorem compareFlags_equal_iff : (compareFlags x y).equal = true ↔ x = y :=
  decide_eq_true_iff.trans BitVec.toNat_inj

theorem compareFlags_less_iff : (compareFlags x y).less = true ↔ x.toNat < y.toNat :=
  decide_eq_true_iff

theorem compareFlags_greater_iff : (compareFlags x y).greater = true ↔ y.toNat < x.toNat :=
  decide_eq_true_iff

end

/-- Settles O6: CMP writes the flags of the comparison and advances `pc` by 3. -/
theorem cmpSetsFlagsByUnsignedOrder : Obligations.CmpSetsFlagsByUnsignedOrder :=
  ⟨fun a b s => ⟨_, exec_cmp a b s, compareFlags_equal_iff _ _, compareFlags_less_iff _ _,
      compareFlags_greater_iff _ _, s.after_toNat 3, fun _ _ => rfl, fun _ => rfl, rfl, rfl, rfl⟩,
    runsRR_of_decodeOperands fun _ _ => rfl⟩

end Sys2Proof.Machine
end

section
/-! PUSH and POP (R101 to R103): what each leaves in the stack pointer, the registers and memory, and the two in
sequence. -/

namespace Sys2Proof.Machine

open Sys2Proof.Claims

/-- The pre-decrement is the addition of 255 modulo 256 (R33). -/
theorem sub_one_toNat (x : Byte) : (x - 1#8).toNat = (x.toNat + 255) % 256 := by
  rw [BitVec.toNat_sub, Nat.add_comm]
  rfl

section
variable {a : Reg} {s t : State}

/-! ### PUSH -/

theorem exec_push_sp (h : exec (.push a) s = .next t) : t.reg 7 = s.reg 7 - 1#8 := by
  cases exec_iff_effect.1 h
  simp [spIndex]

/-- PUSH writes the cell below the old top and no other; PUSH R7 stores the decremented pointer (R100, R101). -/
theorem exec_push_memRead (h : exec (.push a) s = .next t) (x : Addr) :
    t.memRead x =
      if x = s.reg 7 - 1#8 then (if a = 7 then s.reg 7 - 1#8 else s.reg a) else s.memRead x := by
  cases exec_iff_effect.1 h
  exact State.memWrite_memRead _ _ x _

theorem exec_push_memKeptBut (h : exec (.push a) s = .next t) : MemKeptBut (s.reg 7 - 1#8) s t := by
  intro x hx
  rw [exec_push_memRead h, if_neg hx]

/-! ### POP -/

theorem exec_pop_reg (h : exec (.pop a) s = .next t) (ha : a ≠ 7) : t.reg a = s.memRead (s.reg 7) := by
  cases exec_iff_effect.1 h
  simp [spIndex, ha]

theorem exec_pop_sp (h : exec (.pop a) s = .next t) (ha : a ≠ 7) : t.reg 7 = s.reg 7 + 1#8 := by
  cases exec_iff_effect.1 h
  simp [spIndex, ha.symm]

/-- POP R7 increments the popped byte, not the old stack pointer (R100, R102). -/
theorem exec_pop_sp_self (h : exec (.pop 7) s = .next t) : t.reg 7 = s.memRead (s.reg 7) + 1#8 := by
  cases exec_iff_effect.1 h
  simp [spIndex]

theorem exec_pop_memKept (h : exec (.pop a) s = .next t) : MemKept s t := by
  cases exec_iff_effect.1 h
  exact fun _ => rfl

end

/-- Settles O7: the decrement of the stack pointer, the store below the old top, then the advance of `pc` by 2. -/
theorem pushStoresBelowTheTop : Obligations.PushStoresBelowTheTop := by
  refine ⟨fun a s => ?_, runsR_of_decodeOperands fun _ _ => rfl⟩
  have h := exec_push a s
  refine ⟨_, h, ?sp, ?stored, s.after_toNat 2, fun r hr => exec_reg_of_notMem_writtenRegs (i := .push a) hr h,
    exec_push_memKeptBut h, rfl, rfl, rfl, rfl⟩
  case sp => rw [exec_push_sp h, sub_one_toNat]
  case stored => rw [exec_push_memRead h, if_pos rfl]

/-- Settles O8: the load of the top cell, the increment of the stack pointer, then the advance of `pc` by 2. -/
theorem popLoadsTheTop : Obligations.PopLoadsTheTop := by
  refine ⟨fun a s => ?_, runsR_of_decodeOperands fun _ _ => rfl⟩
  have h := exec_pop a s
  refine ⟨_, h, fun ha => ⟨exec_pop_reg h ha, ?sp⟩, ?popSp, s.after_toNat 2,
    fun r hr => exec_reg_of_notMem_writtenRegs (i := .pop a) hr h, exec_pop_memKept h, rfl, rfl, rfl, rfl⟩
  case sp =>
    rw [exec_pop_sp h ha]
    exact BitVec.toNat_add _ _
  case popSp =>
    rintro rfl
    rw [exec_pop_sp_self h]
    exact BitVec.toNat_add _ _

/-- Settles O36: POP reads the cell that PUSH stored in, and its increment undoes the decrement of PUSH. -/
theorem pushThenPopIsBalanced : Obligations.PushThenPopIsBalanced := by
  intro r r2 s hr hr2
  obtain ⟨t, ht⟩ := exists_effect (.push r) s
  obtain ⟨u, hu⟩ := exists_effect (.pop r2) t
  have push := ht.exec_eq
  have pop := hu.exec_eq
  have stored : t.memRead (s.reg 7 - 1#8) = s.reg r := by
    rw [exec_push_memRead push, if_pos rfl, if_neg hr]
  have sp : u.reg 7 = s.reg 7 := by
    rw [exec_pop_sp pop hr2, exec_push_sp push, BitVec.sub_add_cancel]
  refine ⟨t, u, push, pop, ?moved, sp, (exec_pop_memKept pop _).trans stored, fun q hq => ?regs, fun x hx => ?cells⟩
  case moved => rw [exec_pop_reg pop hr2, exec_push_sp push, stored]
  case regs =>
    obtain rfl | hq7 := eq_or_ne q 7
    · exact sp
    · have popped : u.reg q = t.reg q :=
        exec_reg_of_notMem_writtenRegs (by simpa [writtenRegs, hq7] using hq) pop
      have pushed : t.reg q = s.reg q := exec_reg_of_notMem_writtenRegs (by simpa [writtenRegs] using hq7) push
      exact popped.trans pushed
  case cells => exact (exec_pop_memKept pop x).trans (exec_push_memKeptBut push x hx)

end Sys2Proof.Machine
end

section
/-! CALL and RET (R110 to R114): what each leaves in `pc`, the stack pointer and memory, and the two in sequence. -/

namespace Sys2Proof.Machine

open Sys2Proof.Claims

section
variable {s t : State}

/-! ### CALL -/

theorem exec_call_sp {a : Reg} (h : exec (.call a) s = .next t) : t.reg 7 = s.reg 7 - 1#8 := by
  cases exec_iff_effect.1 h
  simp [spIndex]

/-- CALL writes the return address to the cell below the old top and no other cell (R110). -/
theorem exec_call_memRead {a : Reg} (h : exec (.call a) s = .next t) (x : Addr) :
    t.memRead x = if x = s.reg 7 - 1#8 then s.after 2 else s.memRead x := by
  cases exec_iff_effect.1 h
  exact State.memWrite_memRead _ _ x _

/-- CALL leaves the address 2 bytes past its start on top of the stack. -/
theorem exec_call_top {a : Reg} (h : exec (.call a) s = .next t) : t.memRead (t.reg 7) = s.after 2 := by
  rw [exec_call_sp h, exec_call_memRead h, if_pos rfl]

/-! ### RET under the literal policy -/

/-- A literal RET changes no register (R111). -/
theorem exec_ret_literal_reg (hp : s.config.retPolicy = .literal) (h : exec .ret s = .next t) (r : Reg) :
    t.reg r = s.reg r :=
  exec_reg_of_notMem_writtenRegs (by simp [writtenRegs, hp]) h

/-- A literal RET rewrites the top cell and no other (R111). -/
theorem exec_ret_literal_memRead (hp : s.config.retPolicy = .literal) (h : exec .ret s = .next t) (x : Addr) :
    t.memRead x = if x = s.reg 7 then s.reg 7 + 1#8 else s.memRead x := by
  cases exec_iff_effect.1 h with
  | retLiteral _ => exact State.memWrite_memRead _ _ x _
  | retCorrected hc => simp [hp] at hc

/-- The cell that a literal RET leaves on top holds the stack pointer plus one. -/
theorem exec_ret_literal_top (hp : s.config.retPolicy = .literal) (h : exec .ret s = .next t) :
    t.memRead (t.reg 7) = s.reg 7 + 1#8 := by
  rw [exec_ret_literal_reg hp h, exec_ret_literal_memRead hp h, if_pos rfl]

/-! ### RET under the corrected policy -/

theorem exec_ret_corrected_sp (hp : s.config.retPolicy = .corrected) (h : exec .ret s = .next t) :
    t.reg 7 = s.reg 7 + 1#8 := by
  cases exec_iff_effect.1 h with
  | retLiteral hl => simp [hp] at hl
  | retCorrected _ => simp [spIndex]

theorem exec_ret_corrected_memKept (hp : s.config.retPolicy = .corrected) (h : exec .ret s = .next t) :
    MemKept s t := by
  cases exec_iff_effect.1 h with
  | retLiteral hl => simp [hp] at hl
  | retCorrected _ => exact fun _ => rfl

end

/-- Settles O9: the decrement of the stack pointer, the store of the return address below the old top, then the jump. -/
theorem callPushesReturnAddressAndJumps : Obligations.CallPushesReturnAddressAndJumps := by
  refine ⟨fun a s => ?_, runsR_of_decodeOperands fun _ _ => rfl⟩
  have h := exec_call a s
  refine ⟨_, h, ?sp, ?stored, exec_pc h, fun r hr => exec_reg_of_notMem_writtenRegs (i := .call a) hr h,
    fun x hx => ?cells, rfl, rfl, rfl, rfl⟩
  case sp => rw [exec_call_sp h, sub_one_toNat]
  case stored =>
    rw [exec_call_memRead h, if_pos rfl]
    exact s.after_toNat 2
  case cells => rw [exec_call_memRead h, if_neg hx]

/-- Settles O10: the read of the target, then the rewrite of the cell it was read from. -/
theorem literalRetRewritesTheTop : Obligations.LiteralRetRewritesTheTop := by
  refine ⟨fun s hp => ?_, runsZ_of_decodeOperands fun _ _ => rfl⟩
  have h := exec_ret_literal hp
  refine ⟨_, h, exec_pc h, ?top, fun r _ => exec_ret_literal_reg hp h r, fun x hx => ?cells, rfl, rfl, rfl, rfl⟩
  case top =>
    rw [exec_ret_literal_memRead hp h, if_pos rfl]
    exact BitVec.toNat_add _ _
  case cells => rw [exec_ret_literal_memRead hp h, if_neg hx]

/-- Settles O11: the read of the target, then the increment of the stack pointer. -/
theorem correctedRetPopsTheTop : Obligations.CorrectedRetPopsTheTop := by
  refine ⟨fun s hp => ?_, runsZ_of_decodeOperands fun _ _ => rfl⟩
  have h := exec_ret_corrected hp
  refine ⟨_, h, exec_pc h, ?sp, fun r hr => exec_reg_of_notMem_writtenRegs ?kept h, exec_ret_corrected_memKept hp h,
    rfl, rfl, rfl, rfl⟩
  case sp =>
    rw [exec_ret_corrected_sp hp h]
    exact BitVec.toNat_add _ _
  case kept => simpa [writtenRegs, hp] using hr

/-- Settles O37: RET takes its target from the cell that CALL stored in; under the corrected policy its increment undoes
the decrement of CALL. -/
theorem retReturnsPastItsCall : Obligations.RetReturnsPastItsCall := by
  intro a s t u call hsp htop
  obtain ⟨v, hv⟩ := exists_effect .ret u
  have ret := hv.exec_eq
  have target : v.pc = s.after 2 := (exec_pc ret).trans (htop.trans (exec_call_top call))
  have sp : u.reg 7 = s.reg 7 - 1#8 := hsp.trans (exec_call_sp call)
  refine ⟨v, ret, ?pc, fun hp => ⟨?restored, exec_ret_corrected_memKept hp ret⟩, fun hp => ⟨?low, ?leaked⟩⟩
  case pc => rw [target, State.after_toNat]
  case restored => rw [exec_ret_corrected_sp hp ret, sp, BitVec.sub_add_cancel]
  case low => rw [exec_ret_literal_reg hp ret, sp, sub_one_toNat]
  case leaked => rw [exec_ret_literal_top hp ret, exec_ret_literal_reg hp ret]

/-- Settles O38: the second RET and the POP both read the cell that the first RET rewrote. -/
theorem literalRetLeaksACell : Obligations.LiteralRetLeaksACell := by
  intro s t hp ret
  have leaked : t.memRead (t.reg 7) = s.reg 7 + 1#8 := exec_ret_literal_top hp ret
  refine ⟨?second, fun a ha => ?pop⟩
  case second =>
    obtain ⟨u, hu⟩ := exists_effect .ret t
    exact ⟨u, hu.exec_eq, (exec_pc hu.exec_eq).trans leaked⟩
  case pop =>
    obtain ⟨u, hu⟩ := exists_effect (.pop a) t
    exact ⟨u, hu.exec_eq, (exec_pop_reg hu.exec_eq ha).trans leaked⟩

end Sys2Proof.Machine
end

section
/-! JMP, JEQ and JNE (R120 to R123): each writes `pc` and nothing else, and runs by the one register in its bytes; a JMP
to itself is a fixed point of the step. -/

namespace Sys2Proof.Machine

open Sys2Proof.Claims

/-! ### A jump to itself -/

/-- A state that a step of the machine leaves as it is, every number of steps leaves as it is. -/
theorem run_of_step_eq_self {M : Host.Core} {s : M.State} (h : M.step s = .next s) (k : Nat) :
    M.run k s = .next s := by
  induction k with
  | zero => rfl
  | succ k ih =>
    rw [Host.Core.run, h]
    exact ih

/-- Transferring control to where it already is changes nothing (R8). -/
@[simp] theorem State.setPc_self (s : State) : s.setPc s.pc = s := rfl

/-- The bytes of a JMP are checked as format `R` (R51, R120). -/
theorem runsR_jmp : RunsR .jmp .jmp := runsR_of_decodeOperands fun _ _ => rfl

/-- Settles O39: the state is a fixed point of the step. -/
theorem jmpToItselfRunsForever : Obligations.JmpToItselfRunsForever := by
  intro s a opa opb h hopa hself
  have fixed : step s = .next s := by
    rw [(runsR_jmp s opa opb h).2 a hopa, exec_jmp, hself, State.setPc_self]
  exact run_of_step_eq_self (M := core) fixed

/-! ### Target and frame -/

/-- A control transfer keeps everything but `pc` (R123). -/
theorem setPc_frame (s : State) (p : Addr) :
    RegsKept [] s (s.setPc p) ∧ MemKept s (s.setPc p) ∧ FlagsKept s (s.setPc p) ∧ OutRunConfigKept s (s.setPc p) :=
  ⟨fun _ _ => rfl, fun _ => rfl, rfl, rfl, rfl, rfl⟩

/-- Settles O12: JMP is one control transfer, to the value of the register. -/
theorem jmpSetsPcFromRegister : Obligations.JmpSetsPcFromRegister :=
  ⟨fun a s => ⟨_, exec_jmp a s, rfl, setPc_frame s _⟩, runsR_jmp⟩

/-- Settles O13: one control transfer, its target chosen by Equal; the operand check comes before and does not look at the
flags. -/
theorem jeqBranchesOnEqual : Obligations.JeqBranchesOnEqual := by
  refine ⟨fun a s => ⟨_, exec_jeq a s, fun set => ?taken, fun clear => ?fallsThrough, setPc_frame s _⟩,
    runsR_of_decodeOperands fun _ _ => rfl⟩
  case taken => rw [State.setPc_pc, if_pos set]
  case fallsThrough => rw [State.setPc_pc, if_neg (Bool.eq_false_iff.1 clear), State.after_toNat]

/-- Settles O14: the transfer of JEQ with the two targets exchanged. -/
theorem jneBranchesOnNotEqual : Obligations.JneBranchesOnNotEqual := by
  refine ⟨fun a s => ⟨_, exec_jne a s, fun clear => ?taken, fun set => ?fallsThrough, setPc_frame s _⟩,
    runsR_of_decodeOperands fun _ _ => rfl⟩
  case taken => rw [State.setPc_pc, if_neg (Bool.eq_false_iff.1 clear)]
  case fallsThrough => rw [State.setPc_pc, if_pos set, State.after_toNat]

end Sys2Proof.Machine
end

section
/-! Faults are taken by the step alone (R75, R137, R141): every instruction completes, and a step that ends faulted is the
decoder's rejection taken. -/

namespace Sys2Proof.Machine

open Sys2Proof.Claims

/-- Settles O21: every instruction, under either `RET_POLICY`, has an effect, and its effect is the state `exec` answers. -/
theorem everyInstructionCompletesFromEveryState : Obligations.EveryInstructionCompletesFromEveryState := by
  intro i s
  obtain ⟨t, ht⟩ := exists_effect i s
  exact ⟨t, ht.exec_eq⟩

/-- An instruction executed by a running core leaves it running or halted (R82, R137). -/
theorem exec_run_ne_faulted {i : Instr} {s t : State} (hr : s.run = .running) (h : exec i s = .next t)
    (c : FaultCause) : t.run ≠ .faulted c := by
  obtain kept | halted := exec_run h
  · simp [kept, hr]
  · simp [halted]

/-- A step that ends faulted took the decoder's fault: the decoder rejected the bytes at `pc` with the recorded cause, and
that cause was raised (R72, R73, R137). -/
theorem raise_of_step_faulted {s t : State} {c : FaultCause} (h : step s = .next t) (ht : t.run = .faulted c) :
    s.decodeNext = .error c ∧ t = s.raise c := by
  obtain ⟨hr, ⟨i, -, he⟩ | ⟨d, hd, rfl⟩⟩ := step_cases h
  · exact absurd ht (exec_run_ne_faulted hr he c)
  · obtain rfl : d = c := RunState.faulted.inj ht
    exact ⟨hd, rfl⟩

/-- Settles O25: the fault taken is the decoder's, which has two causes, and taking it writes the run state alone. -/
theorem faultsArePreciseAndChangeOnlyTheRunState : Obligations.FaultsArePreciseAndChangeOnlyTheRunState := by
  intro s t c h ht
  obtain ⟨rejected, raised⟩ := raise_of_step_faulted h ht
  exact ⟨raised, rejects_iff.2 rejected, decodeNext_error rejected⟩

end Sys2Proof.Machine
end

section
/-! Encoding and decoding agree, in both directions (R50, R51, R55, R58): a row's operand check accepts exactly the
operand bytes the encoder writes, whatever stands in the bytes the row does not use. -/

namespace Sys2Proof

section
variable {opa opb : Byte} {i : Instr}

/-- Format `R` and `RI`: what is accepted is the instruction of the register that operand A encodes (R51, R53). -/
theorem decodeR_ok_iff {mk : Reg → Instr} : decodeR mk opa = .ok i ↔ ∃ a, opa = regByte a ∧ i = mk a := by
  constructor
  · intro h
    rcases decodeR_cases mk opa with ⟨a, ha, accepted⟩ | ⟨-, rejected⟩
    · exact ⟨a, (regByte_eq ha).symm, Except.ok.inj (h.symm.trans accepted)⟩
    · exact nomatch h.symm.trans rejected
  · rintro ⟨a, rfl, rfl⟩
    rw [decodeR_eq, regOperand_regByte]

/-- Format `RR`: what is accepted is the instruction of the registers that operands A and B encode (R51, R53). -/
theorem decodeRR_ok_iff {mk : Reg → Reg → Instr} :
    decodeRR mk opa opb = .ok i ↔ ∃ a b, opa = regByte a ∧ opb = regByte b ∧ i = mk a b := by
  constructor
  · intro h
    rcases decodeRR_cases mk opa opb with ⟨a, b, ha, hb, accepted⟩ | ⟨-, rejected⟩ | ⟨-, -, rejected⟩
    · exact ⟨a, b, (regByte_eq ha).symm, (regByte_eq hb).symm, Except.ok.inj (h.symm.trans accepted)⟩
    · exact nomatch h.symm.trans rejected
    · exact nomatch h.symm.trans rejected
  · rintro ⟨a, b, rfl, rfl, rfl⟩
    exact decodeRR_ok mk (regByte_toNat a) (regByte_toNat b)

/-- What decodes passed the operand check of its own row (R72, R73). -/
theorem decodeOperands_of_decode {o : OpcodeMap} {ir : Byte} (h : decode o ir opa opb = .ok i) :
    decodeOperands i.mnemonic opa opb = .ok i := by
  unfold decode at h
  cases hl : o.lookup ir with
  | none => simp [hl] at h
  | some m =>
    have accepted : decodeOperands m opa opb = .ok i := by simpa [hl] using h
    rwa [decodeOperands_mnemonic accepted]

/-- What a row's operand check accepts is encoded as the row's opcode and those of its operand bytes that the row's
format uses (R51, R55). -/
theorem encode_of_decodeOperands (o : OpcodeMap) {m : Mnemonic} (h : decodeOperands m opa opb = .ok i) :
    encode o i = [o.byte m, opa, opb].take m.format.length := by
  cases m with
  | hlt | ret =>
    cases h
    rfl
  | mul | add | cmp =>
    obtain ⟨a, b, rfl, rfl, rfl⟩ := decodeRR_ok_iff.1 h
    rfl
  | _ =>
    obtain ⟨a, rfl, rfl⟩ := decodeR_ok_iff.1 h
    rfl

end

/-- An encoding starts with its row's opcode byte, whatever follows it (R34, R51). -/
theorem encode_append_getD_zero (o : OpcodeMap) (i : Instr) (bytes : List Byte) :
    (encode o i ++ bytes).getD 0 0#8 = o.byte i.mnemonic := by
  cases i <;> rfl

/-- The operand check of an instruction's row accepts the bytes after the opcode of its encoding as that instruction's
operands, whatever follows the encoding (R51, R73). -/
theorem decodeOperands_encode (o : OpcodeMap) (i : Instr) (x y : Byte) :
    decodeOperands i.mnemonic ((encode o i ++ [x, y]).getD 1 0#8) ((encode o i ++ [x, y]).getD 2 0#8) = .ok i := by
  cases i with
  | hlt | ret => rfl
  | mul a b | add a b | cmp a b => exact decodeRR_ok_iff.2 ⟨a, b, rfl, rfl, rfl⟩
  | _ => exact decodeR_ok_iff.2 ⟨_, rfl, rfl⟩

/-- Settles O15: the first byte selects the instruction's row, whose operand check reads the operands back. -/
theorem decodeOfEncodeIsIdentity : Obligations.DecodeOfEncodeIsIdentity := by
  intro o i x y ho
  rw [encode_append_getD_zero, decode_byte ho]
  exact decodeOperands_encode o i x y

/-- Settles O16: the opcode byte is that of the instruction's row, and the operand bytes that the row's check accepted
are the ones the encoder writes. -/
theorem encodeOfDecodeIsTheFetchedBytes : Obligations.EncodeOfDecodeIsTheFetchedBytes := by
  intro o ir opa opb i h
  rw [← decode_ok_byte h]
  exact encode_of_decodeOperands o (decodeOperands_of_decode h)

/-- Settles O19: each word is the encoding of its instruction under the default opcode map, followed by the two bytes
given here to `decodes`. -/
theorem wordsDecodeToTheirInstructions : Obligations.WordsDecodeToTheirInstructions := by
  have decodes (i : Instr) (x y : Byte) := decodeOfEncodeIsIdentity defaultOpcodes i x y (by decide)
  exact ⟨decodes (.ldi 7 129#8) 0#8 0#8, decodes (.prn 5) 255#8 0#8, decodes .hlt 255#8 255#8,
    decodes (.mul 6 1) 0#8 0#8, decodes (.add 2 4) 0#8 0#8, decodes (.cmp 3 5) 0#8 0#8,
    decodes (.push 4) 0#8 0#8, decodes (.pop 2) 0#8 0#8, decodes (.call 1) 0#8 0#8, decodes .ret 255#8 255#8,
    decodes (.jmp 0) 0#8 0#8, decodes (.jeq 6) 0#8 0#8, decodes (.jne 3) 0#8 0#8⟩

end Sys2Proof
end

section
/-! Loading and launch (R24, R26, R151, R152): what the image of a program reads as, that a launch is a reset of the
machine that holds the image, and that it has the invariant. -/

namespace Sys2Proof.Machine

/-- An image lists no cell below its first address. -/
theorem Memory.at_ofBytes_of_lt {k j : Nat} (bytes : List Byte) (h : j < k) :
    Memory.at (Memory.ofBytes k bytes) j = imageFill := by
  by_contra listed
  have : k ≤ j := (Memory.mem_ofBytes (Memory.mem_of_at_ne_fill listed)).1
  omega

/-- A byte put in front of an image is read at its own address, whether it is listed or is the fill byte. -/
theorem Memory.at_ofBytes_cons (k j : Nat) (b : Byte) (bytes : List Byte) :
    Memory.at (Memory.ofBytes k (b :: bytes)) j = if k = j then b else Memory.at (Memory.ofBytes (k + 1) bytes) j := by
  rw [Memory.ofBytes]
  by_cases hb : b = imageFill
  · rw [if_pos hb]
    split
    · rename_i hkj
      rw [hb, Memory.at_ofBytes_of_lt bytes (by omega)]
    · rfl
  · rw [if_neg hb, Memory.at_cons]

/-- The image of a program from `k` on holds the program's byte `n` at `k + n`, and the fill byte past its end (R24). -/
theorem Memory.at_ofBytes_add (k n : Nat) (bytes : List Byte) :
    Memory.at (Memory.ofBytes k bytes) (k + n) = bytes.getD n imageFill := by
  induction bytes generalizing k n with
  | nil => rfl
  | cons b bytes ih =>
    rw [Memory.at_ofBytes_cons]
    cases n with
    | zero => simp
    | succ n =>
      have next_address : k + (n + 1) = k + 1 + n := by omega
      rw [if_neg (by omega), next_address, ih, List.getD_cons_succ]

theorem Memory.read_ofBytes_zero (bytes : List Byte) (a : Addr) :
    Memory.read (Memory.ofBytes 0 bytes) a = bytes.getD a.toNat imageFill := by
  simpa [Memory.read] using Memory.at_ofBytes_add 0 a.toNat bytes

/-- A launch is the reset of a machine that holds the image and has the configuration (R150, R151). -/
theorem State.applyReset_withMem (s : State) (m : Memory) : (s.withMem m).applyReset = State.launch s.config m := rfl

/-- A program of at most 256 bytes loads (R151). -/
theorem State.load_of_length_le (s : State) {program : List Byte} (h : program.length ≤ 256) :
    s.load program = some (s.withMem (Memory.ofBytes 0 program)).applyReset := by
  simp [State.load, Memory.image, memSize, h, State.applyReset_withMem]

/-- A program of more than 256 bytes cannot be loaded (R152). -/
theorem State.load_of_length_gt (s : State) {program : List Byte} (h : 256 < program.length) :
    s.load program = none := by
  simp [State.load, Memory.image, memSize, h.not_ge]

/-- Settles O45: loading is a reset with the program's image in memory, and reset leaves what `resetStateIsAsTabulated`
lists. -/
theorem loadingFillsMemoryFromAddressZero : Obligations.LoadingFillsMemoryFromAddressZero := by
  intro s program
  refine ⟨fun h => ⟨_, s.load_of_length_le h, ?_⟩, s.load_of_length_gt⟩
  obtain ⟨-, -, -, tabulated, -⟩ := resetStateIsAsTabulated
  obtain ⟨pc, sp, regs, flags, run, out, mem, config⟩ := tabulated (s.withMem (Memory.ofBytes 0 program))
  exact ⟨fun a => (mem a).trans (Memory.read_ofBytes_zero program a), run, pc, sp, regs, flags, out, config⟩

/-- A launch of a canonical image under an injective opcode map has the invariant (R5, R26, R151). -/
theorem State.launch_inv {c : Config} {m : Memory} (hc : c.opcodes.wf) (hm : m.wf) : (State.launch c m).Inv where
  memory := hm
  flags := by simp [Flags.atMostOne, State.launch, State.reset]
  opcodes := hc
  cause := nofun

/-- Settles O30: the reset state and the reset of any state are launches too, of the empty image and of the memory
the state holds. -/
theorem resetHasTheInvariant : Obligations.ResetHasTheInvariant :=
  ⟨State.launch_inv (c := defaultConfig) (by decide) Memory.wf_nil, fun _ _ => State.launch_inv,
    fun _ hs => State.launch_inv hs.opcodes hs.memory⟩

end Sys2Proof.Machine
end
